-- ==== Sys2Proof/Word.lean ====
section
/-! DEFINITION. The bit vectors of the machine: bytes, words and selector nibbles (00_scope.md R6), and the
register index (10_state.md R21). -/

namespace Sys2Proof

/-- A `data` cell, an opcode, a selector byte or an immediate byte (00_scope.md R6, `BYTE` = 8). -/
abbrev Byte := BitVec 8

/-- A register, a stack cell, `ip`, `sp`, an immediate word or an address operand (00_scope.md R6, `WORD` = 16). -/
abbrev Word := BitVec 16

/-- One half of a pair selector byte (30_encoding.md R62). -/
abbrev Nibble := BitVec 4

/-- The index of a general register, R0 to R3 (10_state.md R21). -/
abbrev RegIx := Fin 4

end Sys2Proof
end

