-- ==== Sys2Proof/Config.lean ====
section
/-! DEFINITION. The free values: what the spec leaves to a draw of the implementation (00_scope.md R7). Each is an
opaque constant, so that nothing can be proved of its value; the step applies it to the plain counter
`State.draws`. -/

namespace Sys2Proof

/-- How many bytes of `data[A..4095]` a PRINT_STR that finds no terminator has emitted before it faults: the draw
`PRINT_STR_FAULT_OUTPUT` is the prefix of that length, the whole of `data[A..4095]` where the number exceeds it
(44_io.md R176, 92_eei_decisions.md D10; log 7). The argument is the number of the draw. -/
opaque Config.printStrFaultLength : Nat → Nat

/-- The bytes of `data[A..4095]` after a SCAN_STR that faults because its line does not fit: the draw
`SCAN_STR_FAULT_DATA` (44_io.md R177, 92_eei_decisions.md D11; log 8). The arguments are the number of the draw and
the address of the byte. -/
opaque Config.scanStrFaultByte : Nat → Nat → Byte

end Sys2Proof
end

