-- ==== Sys2Proof/Syntax.lean ====
section
/-! DEFINITION. The instructions: one constructor for each of the 35 rows of spec/opcode_table.json
(30_encoding.md R67).

A register operand is held as the encoding gives it, the nibble of a pair selector or the whole byte of a single
selector. Whether it names a register is the first check of the instruction's own rule (`SelPair`, `SelOne`,
30_encoding.md R62, R63), which is where the spec raises InvalidRegisterSelector (60_exceptions.md R202, R204). -/

namespace Sys2Proof

/-- The Custom-VM instruction set. `d` and `r` name the operand of the catalogue's Rd and Rs: `d` the destination
or first operand, `r` the source; `addr` and `target` are 16-bit absolute addresses (30_encoding.md R66). -/
inductive Instr where
  -- 40_data_movement.md
  | nop
  | movRdRs (d r : Nibble)
  | movxRdByteAddr (d : Byte) (addr : Word)
  | movRdWordAddr (d : Byte) (addr : Word)
  | movxRdImm8 (d : Byte) (imm : Byte)
  | movRdImm16 (d : Byte) (imm : Word)
  | movByteAddrRs (r : Byte) (addr : Word)
  | movWordAddrRs (r : Byte) (addr : Word)
  | movByteRdRs (d r : Nibble)
  | movxRdByteRs (d r : Nibble)
  -- 41_control_transfer.md
  | jmp (target : Word)
  | jz (target : Word)
  | jnz (target : Word)
  | jae (target : Word)
  | jbe (target : Word)
  | jb (target : Word)
  | ja (target : Word)
  -- 42_arithmetic.md
  | addRdImm16 (d : Byte) (imm : Word)
  | addRdRs (d r : Nibble)
  | addlRdRs (d r : Nibble)
  | addlRdImm8 (d : Byte) (imm : Byte)
  | subRdImm16 (d : Byte) (imm : Word)
  | subRdRs (d r : Nibble)
  | sublRdRs (d r : Nibble)
  | sublRdImm8 (d : Byte) (imm : Byte)
  | xorRdRs (d r : Nibble)
  | xorlRdRs (d r : Nibble)
  | cmpRdRs (d r : Nibble)
  | cmplRdRs (d r : Nibble)
  -- 43_stack.md
  | pushRs (r : Byte)
  | popRd (d : Byte)
  -- 44_io.md
  | printInt
  | printStr
  | scanStr
  -- 45_halt.md
  | halt
  deriving DecidableEq, Repr

/-- The pair-selector nibble that names register `i` (30_encoding.md R62). -/
def RegIx.nibble (i : RegIx) : Nibble := BitVec.ofNat 4 i.val

/-- The single-selector byte that names register `i` (30_encoding.md R63). -/
def RegIx.byte (i : RegIx) : Byte := BitVec.ofNat 8 i.val

end Sys2Proof
end

