-- ==== Sys2Proof/Decode.lean ====
section
/-! DEFINITION. Decoding and encoding (30_encoding.md R60 to R71), and the bit-field and byte-order helpers they
use. Decoding is total on any list of bytes and refuses by name. -/

namespace Sys2Proof

/-! ## Bit fields and byte order -/

/-- `b[7:4]`, the destination half of a pair selector (30_encoding.md R62). -/
def hiNibble (b : Byte) : Nibble := b.extractLsb' 4 4

/-- `b[3:0]`, the source half of a pair selector (30_encoding.md R62). -/
def loNibble (b : Byte) : Nibble := b.extractLsb' 0 4

/-- The pair selector with destination `d` and source `r` (30_encoding.md R62). -/
def pairByte (d r : Nibble) : Byte := d ++ r

/-- `v[7:0]` (00_scope.md R8). -/
def loByte (v : Word) : Byte := v.extractLsb' 0 8

/-- `v[15:8]` (00_scope.md R8). -/
def hiByte (v : Word) : Byte := v.extractLsb' 8 8

/-- `{hi, lo}`: `hi` in bits 15:8 (00_scope.md R8). The low byte lies at the lower address (20_memory.md R47). -/
def wordOf (hi lo : Byte) : Word := hi ++ lo

/-! ## Decoding -/

/-- Why the fetched bytes are no instruction. -/
inductive DecodeError where
  /-- The opcode byte is none of the 35 of 30_encoding.md R67 (R68). -/
  | invalidOpcode
  /-- There is no opcode byte, or an operand byte that the opcode needs is missing (R72). -/
  | truncated
  deriving DecidableEq, Repr

/-- What the decoder answers: an instruction and the bytes after it, or why there is none. -/
abbrev Decoded := Except DecodeError (Instr × List Byte)

/-- Format P: one pair selector (30_encoding.md R61). -/
def decodeP (mk : Nibble → Nibble → Instr) : List Byte → Decoded
  | b1 :: rest => .ok (mk (hiNibble b1) (loNibble b1), rest)
  | [] => .error .truncated

/-- Format S: one single selector (30_encoding.md R61). -/
def decodeS (mk : Byte → Instr) : List Byte → Decoded
  | b1 :: rest => .ok (mk b1, rest)
  | [] => .error .truncated

/-- Format SI8: a single selector, then an immediate byte (30_encoding.md R61, R64). -/
def decodeSI8 (mk : Byte → Byte → Instr) : List Byte → Decoded
  | b1 :: b2 :: rest => .ok (mk b1 b2, rest)
  | _ => .error .truncated

/-- Format A: an address, low byte first (30_encoding.md R61, R66). -/
def decodeA (mk : Word → Instr) : List Byte → Decoded
  | b1 :: b2 :: rest => .ok (mk (wordOf b2 b1), rest)
  | _ => .error .truncated

/-- Formats SI16 and SA: a single selector, then a word, low byte first (30_encoding.md R61, R65, R66). -/
def decodeSW (mk : Byte → Word → Instr) : List Byte → Decoded
  | b1 :: b2 :: b3 :: rest => .ok (mk b1 (wordOf b3 b2), rest)
  | _ => .error .truncated

/-- The operand bytes of the instruction whose opcode byte is `op` (the opcode map, 30_encoding.md R67). The
opcode is checked before any operand byte is asked for (R72). -/
def decodeOperands (op : Byte) (bs : List Byte) : Decoded :=
  match op.toNat with
  | 0x10 => decodeP .movRdRs bs
  | 0x12 => decodeSW .movxRdByteAddr bs
  | 0x14 => decodeSW .movRdWordAddr bs
  | 0x16 => decodeSI8 .movxRdImm8 bs
  | 0x18 => decodeSW .movRdImm16 bs
  | 0x1C => decodeSW .movByteAddrRs bs
  | 0x1F => decodeSW .movWordAddrRs bs
  | 0x51 => decodeSI8 .sublRdImm8 bs
  | 0x55 => decodeP .movByteRdRs bs
  | 0x56 => decodeP .movxRdByteRs bs
  | 0x5B => decodeSW .subRdImm16 bs
  | 0x5C => decodeP .subRdRs bs
  | 0x5D => decodeP .sublRdRs bs
  | 0x70 => decodeP .cmpRdRs bs
  | 0x71 => decodeP .cmplRdRs bs
  | 0x89 => .ok (.scanStr, bs)
  | 0x90 => .ok (.nop, bs)
  | 0xA1 => decodeSI8 .addlRdImm8 bs
  | 0xA2 => decodeP .addlRdRs bs
  | 0xA5 => decodeP .addRdRs bs
  | 0xAD => decodeSW .addRdImm16 bs
  | 0xAE => decodeS .popRd bs
  | 0xAF => decodeS .pushRs bs
  | 0xC0 => .ok (.printInt, bs)
  | 0xC2 => .ok (.printStr, bs)
  | 0xE0 => decodeA .jmp bs
  | 0xE2 => decodeA .jz bs
  | 0xE3 => decodeA .jnz bs
  | 0xE4 => decodeA .jae bs
  | 0xE6 => decodeA .jbe bs
  | 0xE8 => decodeA .jb bs
  | 0xEC => decodeA .ja bs
  | 0xED => .ok (.halt, bs)
  | 0xF0 => decodeP .xorRdRs bs
  | 0xF1 => decodeP .xorlRdRs bs
  | _ => .error .invalidOpcode

/-- The instruction at the head of a list of bytes, and the bytes after it (30_encoding.md R60, R72). -/
def decode : List Byte → Decoded
  | [] => .error .truncated
  | op :: bs => decodeOperands op bs

/-! ## Encoding -/

/-- The bytes of a format P instruction (30_encoding.md R61). -/
def encodeP (op : Byte) (d r : Nibble) : List Byte := [op, pairByte d r]

/-- The bytes of a format A instruction, the address low byte first (30_encoding.md R61). -/
def encodeA (op : Byte) (target : Word) : List Byte := [op, loByte target, hiByte target]

/-- The bytes of a format SI16 or SA instruction, the word low byte first (30_encoding.md R61). -/
def encodeSW (op b1 : Byte) (w : Word) : List Byte := [op, b1, loByte w, hiByte w]

/-- The bytes of an instruction, in address order (30_encoding.md R61, R67). -/
def encode : Instr → List Byte
  | .nop => [0x90#8]
  | .movRdRs d r => encodeP 0x10#8 d r
  | .movxRdByteAddr d addr => encodeSW 0x12#8 d addr
  | .movRdWordAddr d addr => encodeSW 0x14#8 d addr
  | .movxRdImm8 d imm => [0x16#8, d, imm]
  | .movRdImm16 d imm => encodeSW 0x18#8 d imm
  | .movByteAddrRs r addr => encodeSW 0x1C#8 r addr
  | .movWordAddrRs r addr => encodeSW 0x1F#8 r addr
  | .movByteRdRs d r => encodeP 0x55#8 d r
  | .movxRdByteRs d r => encodeP 0x56#8 d r
  | .jmp target => encodeA 0xE0#8 target
  | .jz target => encodeA 0xE2#8 target
  | .jnz target => encodeA 0xE3#8 target
  | .jae target => encodeA 0xE4#8 target
  | .jbe target => encodeA 0xE6#8 target
  | .jb target => encodeA 0xE8#8 target
  | .ja target => encodeA 0xEC#8 target
  | .addRdImm16 d imm => encodeSW 0xAD#8 d imm
  | .addRdRs d r => encodeP 0xA5#8 d r
  | .addlRdRs d r => encodeP 0xA2#8 d r
  | .addlRdImm8 d imm => [0xA1#8, d, imm]
  | .subRdImm16 d imm => encodeSW 0x5B#8 d imm
  | .subRdRs d r => encodeP 0x5C#8 d r
  | .sublRdRs d r => encodeP 0x5D#8 d r
  | .sublRdImm8 d imm => [0x51#8, d, imm]
  | .xorRdRs d r => encodeP 0xF0#8 d r
  | .xorlRdRs d r => encodeP 0xF1#8 d r
  | .cmpRdRs d r => encodeP 0x70#8 d r
  | .cmplRdRs d r => encodeP 0x71#8 d r
  | .pushRs r => [0xAF#8, r]
  | .popRd d => [0xAE#8, d]
  | .printInt => [0xC0#8]
  | .printStr => [0xC2#8]
  | .scanStr => [0x89#8]
  | .halt => [0xED#8]

/-- The length of an instruction in bytes, by its format (30_encoding.md R61, R70). -/
def Instr.length (i : Instr) : Nat := (encode i).length

/-! ## The opcode table's numbering -/

/-- The four bytes, in address order, of an instruction whose first `nbits` bits are those of `w` (bit 0 the least
significant bit of the first byte) and whose other bits are 0. Four bytes is the longest instruction
(30_encoding.md R70). -/
def tableBytes (nbits w : Nat) : List Byte :=
  let v := w % 2 ^ nbits
  [BitVec.ofNat 8 v, BitVec.ofNat 8 (v / 2 ^ 8), BitVec.ofNat 8 (v / 2 ^ 16), BitVec.ofNat 8 (v / 2 ^ 24)]

/-- The instruction the decoder reads from a word numbered as spec/opcode_table.json numbers its bits. -/
def decodeTableWord (nbits w : Nat) : Option Instr :=
  match decode (tableBytes nbits w) with
  | .ok (i, _) => some i
  | .error _ => none

end Sys2Proof
end

