-- ==== Sys2Proof/Machine/State.lean ====
section
/-! DEFINITION. The state of one machine instance (10_state.md R20), the reasons a step can stop, and the state at
the start of a run (10_state.md R34). -/

namespace Sys2Proof.Machine

/-- The six fault reasons of 60_exceptions.md R202. They are values of the architectural `status`: an instruction
that raises one completes its step in a state whose `status` is `faulted`. -/
inductive FaultReason where
  /-- The fetched byte is no opcode (30_encoding.md R68). -/
  | invalidOpcode
  /-- A selector names no register (30_encoding.md R62, R63). -/
  | invalidRegisterSelector
  /-- An address, a jump target or an instruction byte lies outside `data` (20_memory.md R44). -/
  | outOfBoundsAddress
  /-- A push on a full stack (20_memory.md R51). -/
  | stackOverflow
  /-- A pop from an empty stack (20_memory.md R51). -/
  | stackUnderflow
  /-- A PRINT_STR with no terminator, or a SCAN_STR whose line does not fit (44_io.md R176, R177). -/
  | unterminatedOrOversizedIO
  deriving DecidableEq, Repr

/-- The sequencer's state (10_state.md R32, 60_exceptions.md R200). -/
inductive Status where
  | running
  | halted
  | faulted (r : FaultReason)
  deriving DecidableEq, Repr

/-- Why a step does not answer a next state. None of these is a fault of the spec: a fault of the spec is a value
of `status`. -/
inductive Fault where
  /-- Raised by `step` alone, when `status` is Halted: the run has ended and there is no further step
  (60_exceptions.md R200). Safe. -/
  | runHalted
  /-- Raised by `step` alone, when `status` is Faulted: the run has ended and there is no further step
  (60_exceptions.md R200). Safe. -/
  | runFaulted (r : FaultReason)
  /-- Raised by Push and Pop when `sp` is above 256, a value outside the legal range of 10_state.md R29 that no run
  reaches: the cell they would touch does not exist. Safe. -/
  | noSuchStackCell
  /-- Raised by SCAN_STR alone, while the host has not returned a line: the core is blocked in `ReadLine()` and has no
  step, but `status` stays Running and the run has not ended (60_exceptions.md R220, 93_implementation_defined.md P6).
  The state is kept; with a line from the host (`State.supplyLine`) the same instruction goes on. Safe. -/
  | awaitingLine
  deriving DecidableEq, Repr

/-- Why the model has no meaning for an instruction. -/
inductive Refusal where
  /-- Answered only by an arm of `exec` for an instruction without a meaning; no arm of this model does. Safe. -/
  | notModelled (mnemonic : String)
  deriving DecidableEq, Repr

/-- `data` as a list of (address, byte) pairs in the canonical form `Memory.wf`. -/
abbrev Memory := List Host.Cell

/-- The state of one machine instance. The first eight fields are the spec's (10_state.md R20); the last three are
the model's own: what has passed through the external sinks and the counter of the free values. -/
structure State where
  /-- The 4096-byte code and data memory (10_state.md R31). -/
  data : Memory
  /-- The 256 cells of the stack (10_state.md R30). -/
  stack : Vector Word 256
  /-- R0 to R3 (10_state.md R21). -/
  x : Vector Word 4
  /-- The zero flag (10_state.md R25). -/
  zf : Bool
  /-- The carry flag (10_state.md R26). -/
  cf : Bool
  /-- The instruction pointer, a byte index into `data` (10_state.md R24). -/
  ip : Word
  /-- The stack pointer, an index into `stack`; 256 is empty, 0 is full (10_state.md R29). -/
  sp : Word
  /-- The sequencer's state (10_state.md R32). -/
  status : Status
  /-- MODEL's own: the bytes the output sink has received, oldest first (44_io.md R170; log 3). -/
  output : List Byte
  /-- MODEL's own: the bytes the host has returned and the core has not taken, oldest first; the draw `INPUT`
  (44_io.md R171; log 1). DESIGN CHOICE: a state holds finitely many lines, where the spec bounds neither their number
  nor their length (92_eei_decisions.md D12). The host adds to it (`State.supplyLine`); no step of the core does. A host
  that answers for ever is the argument of `State.runWith`. -/
  input : List Byte
  /-- MODEL's own: how many free values have been drawn (log 7, log 8). -/
  draws : Nat
  deriving DecidableEq, Repr

/-- The outcome of one step. -/
abbrev StepResult := Host.Outcome State Fault Refusal

/-- The start of a run (10_state.md R34), with an empty image: all registers and flags 0, `ip` 0, `sp` 256,
`status` Running. DESIGN CHOICE: the bytes of `data` read 0 (log 5), the stack cells are 0 (log 6), the sinks are
empty (log 1, log 3) and no free value has been drawn (log 7, log 8). -/
def State.reset : State where
  data := []
  stack := Vector.replicate 256 0#16
  x := Vector.replicate 4 0#16
  zf := false
  cf := false
  ip := 0#16
  sp := 256#16
  status := .running
  output := []
  input := []
  draws := 0

end Sys2Proof.Machine
end

