-- ==== Sys2Proof/Machine/Flags.lean ====
section
/-! DEFINITION. The ALU functions with their flag rules (42_arithmetic.md R130 to R135), the jump conditions
(41_control_transfer.md R111) and the host's view of the flags (10_state.md R28). -/

namespace Sys2Proof.Machine

/-- The result of an ALU function and the flags it gives. -/
structure AluResult (w : Nat) where
  res : BitVec w
  zf : Bool
  cf : Bool
  deriving DecidableEq, Repr

/-- `AddW(p, q)` (42_arithmetic.md R130). -/
def addW (p q : Word) : AluResult 16 :=
  let r := p + q
  { res := r, zf := r == 0#16, cf := r.ult p }

/-- `SubW(p, q)` (42_arithmetic.md R131; 90_conflicts.md C1). -/
def subW (p q : Word) : AluResult 16 :=
  let r := p - q
  { res := r, zf := r == 0#16, cf := p.ult r }

/-- `AddB(p, q)` (42_arithmetic.md R132). -/
def addB (p q : Byte) : AluResult 8 :=
  let r := p + q
  { res := r, zf := r == 0#8, cf := r.ult p }

/-- `SubB(p, q)` (42_arithmetic.md R133). -/
def subB (p q : Byte) : AluResult 8 :=
  let r := p - q
  { res := r, zf := r == 0#8, cf := p.ult r }

/-- `XorW(p, q)` (42_arithmetic.md R134). -/
def xorW (p q : Word) : AluResult 16 :=
  let r := p ^^^ q
  { res := r, zf := r == 0#16, cf := false }

/-- `XorB(p, q)`: `zf` tests the 8-bit result (42_arithmetic.md R134; 92_eei_decisions.md D25; log 20). -/
def xorB (p q : Byte) : AluResult 8 :=
  let r := p ^^^ q
  { res := r, zf := r == 0#8, cf := false }

/-- The `zf` of `CmpW(p, q)` (42_arithmetic.md R135). -/
def cmpZfW (p q : Word) : Bool := p == q

/-- The `cf` of `CmpW(p, q)`: `q > p` (42_arithmetic.md R135). -/
def cmpCfW (p q : Word) : Bool := p.ult q

/-- The `zf` of `CmpB(p, q)` (42_arithmetic.md R135). -/
def cmpZfB (p q : Byte) : Bool := p == q

/-- The `cf` of `CmpB(p, q)`: `q > p` (42_arithmetic.md R135). -/
def cmpCfB (p q : Byte) : Bool := p.ult q

/-! ## Jump conditions (41_control_transfer.md R111) -/

/-- JZ: `zf == 1` (R113). -/
def condJz (s : State) : Bool := s.zf

/-- JNZ: `zf == 0` (R114). -/
def condJnz (s : State) : Bool := !s.zf

/-- JAE: `zf == 1 or cf == 0` (R115). -/
def condJae (s : State) : Bool := s.zf || !s.cf

/-- JBE: `zf == 1 or cf == 1` (R116). -/
def condJbe (s : State) : Bool := s.zf || s.cf

/-- JB: `cf == 1 and zf == 0` (R117). -/
def condJb (s : State) : Bool := s.cf && !s.zf

/-- JA: `cf == 0 and zf == 0` (R118). -/
def condJa (s : State) : Bool := !s.cf && !s.zf

/-! ## The host's view of the flags -/

/-- The 8-bit FLAGS view: bit 0 `zf`, bit 1 `cf`, bits 7:2 read 0 (10_state.md R28; 92_eei_decisions.md D15;
log 18). No instruction reaches it. -/
def State.flagsView (s : State) : Byte :=
  (if s.zf then 0x01#8 else 0#8) ||| (if s.cf then 0x02#8 else 0#8)

/-- A write to the FLAGS view: bits 7:2 are ignored (10_state.md R28; log 18). No instruction reaches it. -/
def State.withFlagsView (s : State) (v : Byte) : State :=
  { s with zf := v.getLsbD 0, cf := v.getLsbD 1 }

end Sys2Proof.Machine
end

