-- ==== Sys2Proof/Machine/Operands.lean ====
section
/-! DEFINITION. The operand forms: register selectors (30_encoding.md R62, R63), low bytes and zero extension
(10_state.md R22, R23), and the text of an unsigned number (44_io.md R172). -/

namespace Sys2Proof.Machine

/-- What a check answers: a value, a fault of the spec, or a stop of the model. -/
inductive Checked (α : Type) where
  | ok (a : α)
  | raised (r : FaultReason)
  | stuck (f : Fault)
  deriving DecidableEq, Repr

/-- `SelOne(b)`: the whole byte is the register index (30_encoding.md R63; 92_eei_decisions.md D1; log 11). -/
def selOne (b : Byte) : Checked RegIx :=
  if h : b.toNat < 4 then .ok ⟨b.toNat, h⟩ else .raised .invalidRegisterSelector

/-- `SelPair(b)` on the two nibbles of `b`: both must be register indices (30_encoding.md R62; 90_conflicts.md C5). -/
def selPair (d r : Nibble) : Checked (RegIx × RegIx) :=
  if h : d.toNat < 4 ∧ r.toNat < 4 then .ok (⟨d.toNat, h.1⟩, ⟨r.toNat, h.2⟩)
  else .raised .invalidRegisterSelector

/-- `lo8(v) = v[7:0]` (00_scope.md R9, 10_state.md R22). -/
def lo8 (v : Word) : Byte := v.extractLsb' 0 8

/-- `zext_16(b)` (00_scope.md R9). -/
def zext16 (b : Byte) : Word := b.setWidth 16

/-- The value `SetLo8` writes: bits 15:8 of `v` and the byte `b` (00_scope.md R9, 10_state.md R22). -/
def withLo8 (v : Word) (b : Byte) : Word := (v &&& 0xFF00#16) ||| zext16 b

/-- The ASCII digit of `n` below 10 (44_io.md R172; log 16). -/
def asciiDigit (n : Nat) : Byte := BitVec.ofNat 8 (0x30 + n)

/-- The decimal numeral of `n` in ASCII with no leading zeros, at most `fuel` digits. -/
def decDigits : Nat → Nat → List Byte
  | 0, _ => []
  | fuel + 1, n => if n < 10 then [asciiDigit n] else decDigits fuel (n / 10) ++ [asciiDigit (n % 10)]

/-- `DecStr(v)`: the unsigned decimal numeral of `v`, 1 to 5 digits (44_io.md R172). -/
def decStr (v : Word) : List Byte := decDigits 5 v.toNat

/-- The byte that ends a printed number and an input line (44_io.md R171, R172; log 16, log 17). -/
def newline : Byte := 0x0A#8

end Sys2Proof.Machine
end

