-- ==== Sys2Proof/Machine/Ops.lean ====
section
/-! DEFINITION. The named operations over memory, registers, the stack and the sinks; completing an instruction;
taking a fault; the load that precedes a run.

The spec has no trap and no return from one (60_exceptions.md R208, R209): a fault ends the run, so `raise` has no
counterpart that returns. -/

namespace Sys2Proof.Machine

/-! ## The bytes of `data` -/

/-- What a byte of `data` that is not listed reads as. DESIGN CHOICE 0: the spec leaves the bytes past the image
open (`INIT_TAIL`, 92_eei_decisions.md D7; log 5). -/
def Memory.unlisted : Byte := 0x00#8

/-- The canonical form: addresses strictly rising, all below 4096 (20_memory.md R40), and no entry that equals what
an unlisted address reads as. -/
abbrev Memory.wf (m : Memory) : Prop :=
  m.Pairwise (fun c e => c.1 < e.1) ∧ ∀ c ∈ m, c.1 < 4096 ∧ c.2 ≠ Memory.unlisted

/-- `data[a]`. -/
def Memory.read : Memory → Nat → Byte
  | [], _ => Memory.unlisted
  | (b, v) :: m, a => if a = b then v else Memory.read m a

/-- The entry for `v` at `a` before the entries of `m`, none where `v` is what an unlisted address reads as. -/
def Memory.entry (a : Nat) (v : Byte) (m : Memory) : Memory :=
  if v = Memory.unlisted then m else (a, v) :: m

/-- `data[a] <- v`, keeping the canonical form. -/
def Memory.write : Memory → Nat → Byte → Memory
  | [], a, v => Memory.entry a v []
  | (b, w) :: m, a, v =>
    if a < b then Memory.entry a v ((b, w) :: m)
    else if a = b then Memory.entry a v m
    else (b, w) :: Memory.write m a v

/-- `n` bytes of `data` from `a` on, in address order. -/
def Memory.bytes (m : Memory) : Nat → Nat → List Byte
  | _, 0 => []
  | a, n + 1 => m.read a :: Memory.bytes m (a + 1) n

/-- The bytes `bs` written from `a` on, in address order. -/
def Memory.writeBytes : Memory → Nat → List Byte → Memory
  | m, _, [] => m
  | m, a, b :: bs => Memory.writeBytes (m.write a b) (a + 1) bs

/-- `Terminator(A)`: the least `k` with `A ≤ k ≤ 4095` and `data[k] == 0` (44_io.md R173). -/
def Memory.terminator (m : Memory) (a : Nat) : Option Nat :=
  (List.range' a (4096 - a)).find? (fun k => m.read k == 0x00#8)

/-! ## Checked accesses (20_memory.md R44 to R46) -/

/-- `MemRead(ea, 1)` (20_memory.md R45). -/
def State.memRead1 (s : State) (ea : Word) : Checked Byte :=
  if ea.toNat > 4095 then .raised .outOfBoundsAddress else .ok (s.data.read ea.toNat)

/-- `MemRead(ea, 2)`, little-endian (20_memory.md R46). -/
def State.memRead2 (s : State) (ea : Word) : Checked Word :=
  if ea.toNat > 4094 then .raised .outOfBoundsAddress
  else .ok (wordOf (s.data.read (ea.toNat + 1)) (s.data.read ea.toNat))

/-- `MemWrite(ea, 1, v)` (20_memory.md R45). -/
def State.memWrite1 (s : State) (ea : Word) (v : Byte) : Checked State :=
  if ea.toNat > 4095 then .raised .outOfBoundsAddress else .ok { s with data := s.data.write ea.toNat v }

/-- `MemWrite(ea, 2, v)`, little-endian, checked as a whole before either byte is written (20_memory.md R46). -/
def State.memWrite2 (s : State) (ea : Word) (v : Word) : Checked State :=
  if ea.toNat > 4094 then .raised .outOfBoundsAddress
  else .ok { s with data := (s.data.write ea.toNat (loByte v)).write (ea.toNat + 1) (hiByte v) }

/-! ## Registers and flags -/

/-- `x[i]` (00_scope.md R9). -/
def State.reg (s : State) (i : RegIx) : Word := s.x[i]

/-- `x[i] <- v` (00_scope.md R9). No register is hardwired (10_state.md R21). -/
def State.setReg (s : State) (i : RegIx) (v : Word) : State := { s with x := s.x.set i v }

/-- `SetLo8(i, b)`: bits 15:8 keep their value (00_scope.md R9, 10_state.md R22). -/
def State.setLo8 (s : State) (i : RegIx) (b : Byte) : State := s.setReg i (withLo8 (s.reg i) b)

/-- `zf <- z; cf <- c` (00_scope.md R9). -/
def State.setFlags (s : State) (z c : Bool) : State := { s with zf := z, cf := c }

/-- The result of a word ALU function to `x[d]`, its flags to `zf` and `cf` (42_arithmetic.md R149). -/
def State.putW (s : State) (d : RegIx) (r : AluResult 16) : State := (s.setReg d r.res).setFlags r.zf r.cf

/-- The result of a byte ALU function to the low byte of `x[d]`, its flags to `zf` and `cf` (42_arithmetic.md R149). -/
def State.putB (s : State) (d : RegIx) (r : AluResult 8) : State := (s.setLo8 d r.res).setFlags r.zf r.cf

/-! ## The stack (20_memory.md R50, R51) -/

/-- `Push(v)` (20_memory.md R51). A `sp` above 256 is outside 10_state.md R29 and names no cell (log 9). -/
def State.push (s : State) (v : Word) : Checked State :=
  if s.sp = 0#16 then .raised .stackOverflow
  else if h : s.sp.toNat - 1 < 256 then
    .ok { s with sp := s.sp - 1#16, stack := s.stack.set (s.sp.toNat - 1) v }
  else .stuck .noSuchStackCell

/-- The value `Pop()` returns (20_memory.md R51). A `sp` above 256 is outside 10_state.md R29 and names no cell
(log 9). -/
def State.top (s : State) : Checked Word :=
  if s.sp = 256#16 then .raised .stackUnderflow
  else if h : s.sp.toNat < 256 then .ok s.stack[s.sp.toNat]
  else .stuck .noSuchStackCell

/-- The state `Pop()` leaves: `sp <- sp + 1` (20_memory.md R51). -/
def State.popped (s : State) : State := { s with sp := s.sp + 1#16 }

/-! ## The sinks -/

/-- `Emit(bs)` (44_io.md R170; log 3). -/
def State.emit (s : State) (bs : List Byte) : State := { s with output := s.output ++ bs }

/-- The first line of the bytes the input sink holds, without its 0x0A, and the bytes after that 0x0A; none while no
0x0A has arrived (44_io.md R171; log 1, log 17). -/
def nextLine : List Byte → Option (List Byte × List Byte)
  | [] => none
  | b :: bs => if b = newline then some ([], bs) else (nextLine bs).map (fun p => (b :: p.1, p.2))

/-! ## The ends of a step -/

/-- Taking a fault: `status` becomes Faulted(reason) and nothing else changes, so that `ip` stays at the faulting
opcode and what the instruction did before the check stays done (60_exceptions.md R200, R203, R206, R207). -/
def raise (r : FaultReason) (s : State) : StepResult := .next { s with status := .faulted r }

/-- Going on with the value of a check, or taking the fault it raises in the state `s` (00_scope.md R10). -/
def orRaise {α : Type} (c : Checked α) (s : State) (k : α → StepResult) : StepResult :=
  match c with
  | .ok a => k a
  | .raised r => raise r s
  | .stuck f => .fault f

/-- The last statement of an instruction that completes without a taken jump: `ip <- a + len` (10_state.md R24). -/
def complete (len : Nat) (s : State) : StepResult := .next { s with ip := s.ip + BitVec.ofNat 16 len }

/-- The common rule of the jumps: the target is checked before the condition, taken or not
(41_control_transfer.md R110; 92_eei_decisions.md D5; log 14). -/
def jump (target : Word) (cond : Bool) (s : State) : StepResult :=
  if target.toNat > 4095 then raise .outOfBoundsAddress s
  else .next { s with ip := if cond then target else s.ip + 3#16 }

/-- `ip <- a + 1; status <- Halted` (45_halt.md R190; log 15). -/
def haltAt (s : State) : StepResult := .next { s with ip := s.ip + 1#16, status := .halted }

/-- A core blocked in `ReadLine()` has no step until the host returns a line (60_exceptions.md R220,
93_implementation_defined.md P6; log 2). -/
def awaitLine : StepResult := .fault .awaitingLine

/-! ## The free values of the faulting I/O instructions -/

/-- `Emit(PRINT_STR_FAULT_OUTPUT)`: some prefix of `data[a..4095]` (44_io.md R176; log 7). -/
def State.emitFaultOutput (s : State) (a : Nat) : State :=
  { s with output := s.output ++ (s.data.bytes a (4096 - a)).take (Config.printStrFaultLength s.draws),
           draws := s.draws + 1 }

/-- `data[a..4095] <- SCAN_STR_FAULT_DATA` (44_io.md R177; log 8). -/
def State.scrambleFrom (s : State) (a : Nat) : State :=
  { s with data := s.data.writeBytes a ((List.range (4096 - a)).map (fun i => Config.scanStrFaultByte s.draws (a + i))),
           draws := s.draws + 1 }

/-! ## Fetch -/

/-- The bytes of `data` that the fetch at `ip` can reach: four, the longest instruction, or fewer where `data` ends
(30_encoding.md R72). None of them wraps to address 0. -/
def State.fetchBytes (s : State) : List Byte := s.data.bytes s.ip.toNat (min 4 (4096 - s.ip.toNat))

/-- The fault that a refusal of the decoder is (30_encoding.md R72; log 13). -/
def decodeFault : DecodeError → FaultReason
  | .invalidOpcode => .invalidOpcode
  | .truncated => .outOfBoundsAddress

/-! ## The host's side -/

/-- The run status code of the host's status view (60_exceptions.md R221; log 18). -/
def Status.code : Status → Nat
  | .running => 0
  | .halted => 1
  | .faulted _ => 2

/-- The reason code of the host's status view (60_exceptions.md R202; log 18). -/
def FaultReason.code : FaultReason → Nat
  | .invalidOpcode => 1
  | .invalidRegisterSelector => 2
  | .outOfBoundsAddress => 3
  | .stackOverflow => 4
  | .stackUnderflow => 5
  | .unterminatedOrOversizedIO => 6

/-- The host's status view: the state code and, when Faulted, the reason code (60_exceptions.md R221). -/
def State.statusView (s : State) : Nat × Option Nat :=
  match s.status with
  | .faulted r => (s.status.code, some r.code)
  | _ => (s.status.code, none)

/-- Creation and load (70_reset_and_hazards.md R240): the start state with `image` copied to `data` from address 0 over
`initial`, which is the argument `INIT_TAIL` (what `data` holds beyond the image; R243), and with `input`, the part of
the argument `INPUT` that the host gives before the run (00_scope.md R7; log 1). An image of more than 4096 bytes starts
no run (R242). -/
def State.load (image : List Byte) (initial : Memory) (input : List Byte) : Option State :=
  if image.length ≤ 4096 then some { State.reset with data := initial.writeBytes 0 image, input := input } else none

/-- The host returns one line to the input sink (60_exceptions.md R219, R220): its bytes and the 0x0A that ends it
(44_io.md R171; log 1). -/
def State.supplyLine (s : State) (line : List Byte) : State := { s with input := s.input ++ line ++ [newline] }

end Sys2Proof.Machine
end

