-- ==== Sys2Proof/Machine/Arithmetic.lean ====
section
/-! DEFINITION. The arithmetic, logical and compare instructions (42_arithmetic.md R137 to R148). Both operands are
read before the write, and `zf` and `cf` are written by each (R149). -/

namespace Sys2Proof.Machine

/-- ADD Rd,imm16 (R137). -/
def execAddRdImm16 (d : Byte) (imm : Word) (s : State) : StepResult :=
  orRaise (selOne d) s fun i => complete 4 (s.putW i (addW (s.reg i) imm))

/-- ADD Rd,Rs (R138). -/
def execAddRdRs (d r : Nibble) (s : State) : StepResult :=
  orRaise (selPair d r) s fun p => complete 2 (s.putW p.1 (addW (s.reg p.1) (s.reg p.2)))

/-- ADDL Rd,Rs (R139). -/
def execAddlRdRs (d r : Nibble) (s : State) : StepResult :=
  orRaise (selPair d r) s fun p => complete 2 (s.putB p.1 (addB (lo8 (s.reg p.1)) (lo8 (s.reg p.2))))

/-- ADDL Rd,imm8 (R140). -/
def execAddlRdImm8 (d imm : Byte) (s : State) : StepResult :=
  orRaise (selOne d) s fun i => complete 3 (s.putB i (addB (lo8 (s.reg i)) imm))

/-- SUB Rd,imm16 (R141). -/
def execSubRdImm16 (d : Byte) (imm : Word) (s : State) : StepResult :=
  orRaise (selOne d) s fun i => complete 4 (s.putW i (subW (s.reg i) imm))

/-- SUB Rd,Rs (R142). -/
def execSubRdRs (d r : Nibble) (s : State) : StepResult :=
  orRaise (selPair d r) s fun p => complete 2 (s.putW p.1 (subW (s.reg p.1) (s.reg p.2)))

/-- SUBL Rd,Rs (R143). -/
def execSublRdRs (d r : Nibble) (s : State) : StepResult :=
  orRaise (selPair d r) s fun p => complete 2 (s.putB p.1 (subB (lo8 (s.reg p.1)) (lo8 (s.reg p.2))))

/-- SUBL Rd,imm8 (R144). -/
def execSublRdImm8 (d imm : Byte) (s : State) : StepResult :=
  orRaise (selOne d) s fun i => complete 3 (s.putB i (subB (lo8 (s.reg i)) imm))

/-- XOR Rd,Rs (R145). -/
def execXorRdRs (d r : Nibble) (s : State) : StepResult :=
  orRaise (selPair d r) s fun p => complete 2 (s.putW p.1 (xorW (s.reg p.1) (s.reg p.2)))

/-- XORL Rd,Rs (R146). -/
def execXorlRdRs (d r : Nibble) (s : State) : StepResult :=
  orRaise (selPair d r) s fun p => complete 2 (s.putB p.1 (xorB (lo8 (s.reg p.1)) (lo8 (s.reg p.2))))

/-- CMP Rd,Rs: no register is written (R147). -/
def execCmpRdRs (d r : Nibble) (s : State) : StepResult :=
  orRaise (selPair d r) s fun p =>
  complete 2 (s.setFlags (cmpZfW (s.reg p.1) (s.reg p.2)) (cmpCfW (s.reg p.1) (s.reg p.2)))

/-- CMPL Rd,Rs: no register is written (R148). -/
def execCmplRdRs (d r : Nibble) (s : State) : StepResult :=
  orRaise (selPair d r) s fun p =>
  complete 2 (s.setFlags (cmpZfB (lo8 (s.reg p.1)) (lo8 (s.reg p.2))) (cmpCfB (lo8 (s.reg p.1)) (lo8 (s.reg p.2))))

end Sys2Proof.Machine
end

