-- ==== Sys2Proof/Machine/ControlTransfer.lean ====
section
/-! DEFINITION. The jumps (41_control_transfer.md R110 to R118): absolute, with the conditions of R111. -/

namespace Sys2Proof.Machine

/-- JMP addr (R112). -/
def execJmp (target : Word) (s : State) : StepResult := jump target true s

/-- JZ addr (R113). -/
def execJz (target : Word) (s : State) : StepResult := jump target (condJz s) s

/-- JNZ addr (R114). -/
def execJnz (target : Word) (s : State) : StepResult := jump target (condJnz s) s

/-- JAE addr (R115). -/
def execJae (target : Word) (s : State) : StepResult := jump target (condJae s) s

/-- JBE addr (R116). -/
def execJbe (target : Word) (s : State) : StepResult := jump target (condJbe s) s

/-- JB addr (R117). -/
def execJb (target : Word) (s : State) : StepResult := jump target (condJb s) s

/-- JA addr (R118). -/
def execJa (target : Word) (s : State) : StepResult := jump target (condJa s) s

end Sys2Proof.Machine
end

