-- ==== Sys2Proof/Machine/DataMovement.lean ====
section
/-! DEFINITION. The data movement instructions (40_data_movement.md R90 to R99). No flag is written (R100). -/

namespace Sys2Proof.Machine

/-- NOP (R90). -/
def execNop (s : State) : StepResult := complete 1 s

/-- MOV Rd,Rs (R91). -/
def execMovRdRs (d r : Nibble) (s : State) : StepResult :=
  orRaise (selPair d r) s fun p => complete 2 (s.setReg p.1 (s.reg p.2))

/-- MOVX Rd,BYTE[addr] (R92). -/
def execMovxRdByteAddr (d : Byte) (addr : Word) (s : State) : StepResult :=
  orRaise (selOne d) s fun i =>
  orRaise (s.memRead1 addr) s fun v => complete 4 (s.setReg i (zext16 v))

/-- MOV Rd,WORD[addr] (R93). -/
def execMovRdWordAddr (d : Byte) (addr : Word) (s : State) : StepResult :=
  orRaise (selOne d) s fun i =>
  orRaise (s.memRead2 addr) s fun v => complete 4 (s.setReg i v)

/-- MOVX Rd,imm8 (R94). -/
def execMovxRdImm8 (d imm : Byte) (s : State) : StepResult :=
  orRaise (selOne d) s fun i => complete 3 (s.setReg i (zext16 imm))

/-- MOV Rd,imm16 (R95). -/
def execMovRdImm16 (d : Byte) (imm : Word) (s : State) : StepResult :=
  orRaise (selOne d) s fun i => complete 4 (s.setReg i imm)

/-- MOV BYTE[addr],Rs (R96). -/
def execMovByteAddrRs (r : Byte) (addr : Word) (s : State) : StepResult :=
  orRaise (selOne r) s fun i =>
  orRaise (s.memWrite1 addr (lo8 (s.reg i))) s fun t => complete 4 t

/-- MOV WORD[addr],Rs (R97). -/
def execMovWordAddrRs (r : Byte) (addr : Word) (s : State) : StepResult :=
  orRaise (selOne r) s fun i =>
  orRaise (s.memWrite2 addr (s.reg i)) s fun t => complete 4 t

/-- MOV BYTE[Rd],Rs: Rd holds the address, Rs supplies the byte (R98). -/
def execMovByteRdRs (d r : Nibble) (s : State) : StepResult :=
  orRaise (selPair d r) s fun p =>
  orRaise (s.memWrite1 (s.reg p.1) (lo8 (s.reg p.2))) s fun t => complete 2 t

/-- MOVX Rd,BYTE[Rs]: Rs holds the address (R99). -/
def execMovxRdByteRs (d r : Nibble) (s : State) : StepResult :=
  orRaise (selPair d r) s fun p =>
  orRaise (s.memRead1 (s.reg p.2)) s fun v => complete 2 (s.setReg p.1 (zext16 v))

end Sys2Proof.Machine
end

