-- ==== Sys2Proof/Machine/Halt.lean ====
section
/-! DEFINITION. HALT (45_halt.md R190). -/

namespace Sys2Proof.Machine

/-- HALT: the only normal end of a run (R190). -/
def execHalt (s : State) : StepResult := haltAt s

end Sys2Proof.Machine
end

