-- ==== Sys2Proof/Machine/InputOutput.lean ====
section
/-! DEFINITION. The input and output instructions (44_io.md R175 to R177). Each pops its operand; what was done
before a failing check stays done (60_exceptions.md R207). -/

namespace Sys2Proof.Machine

/-- PRINT_INT (R175). -/
def execPrintInt (s : State) : StepResult :=
  orRaise s.top s fun v => complete 1 (s.popped.emit (decStr v ++ [newline]))

/-- PRINT_STR (R176). -/
def execPrintStr (s : State) : StepResult :=
  orRaise s.top s fun a =>
  if a.toNat > 4095 then raise .outOfBoundsAddress s.popped
  else match s.data.terminator a.toNat with
    | none => raise .unterminatedOrOversizedIO (s.popped.emitFaultOutput a.toNat)
    | some k => complete 1 (s.popped.emit (s.data.bytes a.toNat (k - a.toNat)))

/-- SCAN_STR (R177). While no line has arrived it has no step (60_exceptions.md R220; log 2). -/
def execScanStr (s : State) : StepResult :=
  orRaise s.top s fun a =>
  if a.toNat > 4095 then raise .outOfBoundsAddress s.popped
  else match nextLine s.input with
    | none => awaitLine
    | some (line, rest) =>
      if line.length > 4095 - a.toNat then
        raise .unterminatedOrOversizedIO ({ s.popped with input := rest }.scrambleFrom a.toNat)
      else
        complete 1 { s.popped with input := rest, data := s.data.writeBytes a.toNat (line ++ [0x00#8]) }

end Sys2Proof.Machine
end

