-- ==== Sys2Proof/Machine/Stack.lean ====
section
/-! DEFINITION. The stack instructions (43_stack.md R160, R161). -/

namespace Sys2Proof.Machine

/-- PUSH Rs (R160). -/
def execPushRs (r : Byte) (s : State) : StepResult :=
  orRaise (selOne r) s fun i =>
  orRaise (s.push (s.reg i)) s fun t => complete 2 t

/-- POP Rd (R161). -/
def execPopRd (d : Byte) (s : State) : StepResult :=
  orRaise (selOne d) s fun i =>
  orRaise s.top s fun v => complete 2 (s.popped.setReg i v)

end Sys2Proof.Machine
end

