-- ==== Sys2Proof/Machine/Dispatch.lean ====
section
/-! DEFINITION. One arm per instruction, each one call of the instruction's meaning. -/

namespace Sys2Proof.Machine

def exec (i : Instr) (s : State) : Host.Outcome State Fault Refusal :=
  match i with
  -- 40_data_movement.md
  | .nop => Sys2Proof.Machine.execNop s
  | .movRdRs d r => Sys2Proof.Machine.execMovRdRs d r s
  | .movxRdByteAddr d addr => Sys2Proof.Machine.execMovxRdByteAddr d addr s
  | .movRdWordAddr d addr => Sys2Proof.Machine.execMovRdWordAddr d addr s
  | .movxRdImm8 d imm => Sys2Proof.Machine.execMovxRdImm8 d imm s
  | .movRdImm16 d imm => Sys2Proof.Machine.execMovRdImm16 d imm s
  | .movByteAddrRs r addr => Sys2Proof.Machine.execMovByteAddrRs r addr s
  | .movWordAddrRs r addr => Sys2Proof.Machine.execMovWordAddrRs r addr s
  | .movByteRdRs d r => Sys2Proof.Machine.execMovByteRdRs d r s
  | .movxRdByteRs d r => Sys2Proof.Machine.execMovxRdByteRs d r s
  -- 41_control_transfer.md
  | .jmp target => Sys2Proof.Machine.execJmp target s
  | .jz target => Sys2Proof.Machine.execJz target s
  | .jnz target => Sys2Proof.Machine.execJnz target s
  | .jae target => Sys2Proof.Machine.execJae target s
  | .jbe target => Sys2Proof.Machine.execJbe target s
  | .jb target => Sys2Proof.Machine.execJb target s
  | .ja target => Sys2Proof.Machine.execJa target s
  -- 42_arithmetic.md
  | .addRdImm16 d imm => Sys2Proof.Machine.execAddRdImm16 d imm s
  | .addRdRs d r => Sys2Proof.Machine.execAddRdRs d r s
  | .addlRdRs d r => Sys2Proof.Machine.execAddlRdRs d r s
  | .addlRdImm8 d imm => Sys2Proof.Machine.execAddlRdImm8 d imm s
  | .subRdImm16 d imm => Sys2Proof.Machine.execSubRdImm16 d imm s
  | .subRdRs d r => Sys2Proof.Machine.execSubRdRs d r s
  | .sublRdRs d r => Sys2Proof.Machine.execSublRdRs d r s
  | .sublRdImm8 d imm => Sys2Proof.Machine.execSublRdImm8 d imm s
  | .xorRdRs d r => Sys2Proof.Machine.execXorRdRs d r s
  | .xorlRdRs d r => Sys2Proof.Machine.execXorlRdRs d r s
  | .cmpRdRs d r => Sys2Proof.Machine.execCmpRdRs d r s
  | .cmplRdRs d r => Sys2Proof.Machine.execCmplRdRs d r s
  -- 43_stack.md
  | .pushRs r => Sys2Proof.Machine.execPushRs r s
  | .popRd d => Sys2Proof.Machine.execPopRd d s
  -- 44_io.md
  | .printInt => Sys2Proof.Machine.execPrintInt s
  | .printStr => Sys2Proof.Machine.execPrintStr s
  | .scanStr => Sys2Proof.Machine.execScanStr s
  -- 45_halt.md
  | .halt => Sys2Proof.Machine.execHalt s

end Sys2Proof.Machine
end

