-- ==== Sys2Proof/Machine/Step.lean ====
section
/-! DEFINITION. One step of the machine: the fetch-decode step of 30_encoding.md R72 and the instruction's rule,
while `status` is Running (60_exceptions.md R201). -/

namespace Sys2Proof.Machine

/-- One step. From Halted and Faulted there is none (60_exceptions.md R200; log 4). -/
def step (s : State) : Host.Outcome State Fault Refusal :=
  match s.status with
  | .halted => .fault .runHalted
  | .faulted r => .fault (.runFaulted r)
  | .running =>
    match decode s.fetchBytes with
    | .error e => raise (decodeFault e) s
    | .ok (i, _) => exec i s

/-- `s` with the four bytes of an instruction numbered as spec/opcode_table.json numbers its bits stored at `ip`, where
the next fetch reads; a byte that would lie past address 4095 is not stored (20_memory.md R40). It stands for the
loader (70_reset_and_hazards.md R240; log 10). The step after it runs that instruction when `status` is Running and the
instruction lies in `data`. -/
def State.withFetchWord (s : State) (nbits w : Nat) : State :=
  { s with data := s.data.writeBytes s.ip.toNat ((tableBytes nbits w).take (4096 - s.ip.toNat)) }

end Sys2Proof.Machine
end

