-- ==== Sys2Proof/Safety.lean ====
section
/-! DEFINITION. The terms the statements use: the invariant of a run, the effect of a fault, the opcode classes of the
spec's whole-machine rules, and when two states differ only where no instruction can look. -/

namespace Sys2Proof

/-- The opcode byte of an instruction (30_encoding.md R60). -/
def Instr.opcode (i : Instr) : Byte := (encode i).headD 0#8

/-- The register selector that names the register the instruction writes, if it writes one: Rd of the MOV and MOVX
loads, of the ADD, SUB and XOR families and of POP (10_state.md R35). Rd of MOV BYTE[Rd],Rs is an address, and CMP and
CMPL write no register (42_arithmetic.md R147, R148). -/
def Instr.destination : Instr → Option Nat
  | .movRdRs d _ | .movxRdByteRs d _ => some d.toNat
  | .movxRdByteAddr d _ | .movRdWordAddr d _ | .movxRdImm8 d _ | .movRdImm16 d _ => some d.toNat
  | .addRdRs d _ | .addlRdRs d _ | .subRdRs d _ | .sublRdRs d _ | .xorRdRs d _ | .xorlRdRs d _ => some d.toNat
  | .addRdImm16 d _ | .addlRdImm8 d _ | .subRdImm16 d _ | .sublRdImm8 d _ => some d.toNat
  | .popRd d => some d.toNat
  | .nop | .movByteAddrRs _ _ | .movWordAddrRs _ _ | .movByteRdRs _ _ => none
  | .jmp _ | .jz _ | .jnz _ | .jae _ | .jbe _ | .jb _ | .ja _ => none
  | .cmpRdRs _ _ | .cmplRdRs _ _ | .pushRs _ | .printInt | .printStr | .scanStr | .halt => none

/-- The opcodes of 40_data_movement.md. -/
def dataMovementOpcodes : List Byte :=
  [0x90#8, 0x10#8, 0x12#8, 0x14#8, 0x16#8, 0x18#8, 0x1C#8, 0x1F#8, 0x55#8, 0x56#8]

/-- The opcodes of 41_control_transfer.md. -/
def jumpOpcodes : List Byte := [0xE0#8, 0xE2#8, 0xE3#8, 0xE4#8, 0xE6#8, 0xE8#8, 0xEC#8]

/-- ADD and ADDL, both operand forms of each. -/
def addOpcodes : List Byte := [0xAD#8, 0xA5#8, 0xA2#8, 0xA1#8]

/-- The instructions that write an ALU result to a register. -/
def aluResultOpcodes : List Byte := addOpcodes ++ [0x5B#8, 0x5C#8, 0x5D#8, 0x51#8, 0xF0#8, 0xF1#8]

/-- The opcodes of 42_arithmetic.md. -/
def aluOpcodes : List Byte := aluResultOpcodes ++ [0x70#8, 0x71#8]

/-- The instructions that 10_state.md R35 lists as writing `x`. -/
def registerWriters : List Byte :=
  [0x10#8, 0x12#8, 0x14#8, 0x16#8, 0x18#8, 0x56#8, 0xAE#8] ++ aluResultOpcodes

/-- The instructions that 10_state.md R35 lists as writing `sp`. -/
def spWriters : List Byte := [0xAF#8, 0xAE#8, 0xC0#8, 0xC2#8, 0x89#8]

/-- The instructions that 10_state.md R35 lists as writing `data`. -/
def dataWriters : List Byte := [0x1C#8, 0x1F#8, 0x55#8, 0x89#8]

/-- The ranges of illegal opcode bytes of 30_encoding.md R68, first and last value of each. -/
def illegalRanges : List (Nat × Nat) :=
  [(0x00, 0x0F), (0x11, 0x11), (0x13, 0x13), (0x15, 0x15), (0x17, 0x17), (0x19, 0x1B), (0x1D, 0x1E), (0x20, 0x50),
   (0x52, 0x54), (0x57, 0x5A), (0x5E, 0x6F), (0x72, 0x88), (0x8A, 0x8F), (0x91, 0xA0), (0xA3, 0xA4), (0xA6, 0xAC),
   (0xB0, 0xBF), (0xC1, 0xC1), (0xC3, 0xDF), (0xE1, 0xE1), (0xE5, 0xE5), (0xE7, 0xE7), (0xE9, 0xEB), (0xEE, 0xEF),
   (0xF2, 0xFF)]

/-- The byte is one of the 221 illegal opcodes of 30_encoding.md R68. -/
def illegalOpcode (b : Byte) : Bool := illegalRanges.any (fun r => r.1 ≤ b.toNat && b.toNat ≤ r.2)

end Sys2Proof

namespace Sys2Proof.Machine

/-- The cell `stack[k]` (10_state.md R30). -/
def State.cell (s : State) (k : Fin 256) : Word := s.stack[k]

/-- `s` after a fault that changed nothing else: only `status` differs (60_exceptions.md R206). -/
def State.withFault (s : State) (r : FaultReason) : State := { s with status := .faulted r }

/-- What holds of every state a run reaches: `data` is canonical, `sp` is legal (10_state.md R29) and `ip` is at most
4096 (10_state.md R24). -/
abbrev State.Inv (s : State) : Prop := s.data.wf ∧ s.sp.toNat ≤ 256 ∧ s.ip.toNat ≤ 4096

/-- `t` is `s` after a completed instruction of length `len` that wrote `v` to register `d` and nothing else. -/
def State.wroteReg (s : State) (d : RegIx) (v len : Nat) (t : State) : Prop :=
  t.reg d = BitVec.ofNat 16 v ∧ (∀ k, k ≠ d → t.reg k = s.reg k) ∧ t.ip = s.ip + BitVec.ofNat 16 len ∧
    t = { s with x := t.x, ip := t.ip }

/-- `t` is `s` after a completed ALU instruction of length `len` that wrote `v` to register `d`, `z` to `zf`, `c` to
`cf`, and nothing else (42_arithmetic.md R149). -/
def State.wroteAlu (s : State) (d : RegIx) (v : Nat) (z c : Bool) (len : Nat) (t : State) : Prop :=
  t.reg d = BitVec.ofNat 16 v ∧ (∀ k, k ≠ d → t.reg k = s.reg k) ∧ t.zf = z ∧ t.cf = c ∧
    t.ip = s.ip + BitVec.ofNat 16 len ∧ t = { s with x := t.x, zf := t.zf, cf := t.cf, ip := t.ip }

/-- The core is blocked in SCAN_STR: the machine is running, a SCAN_STR lies at `ip`, its operand is a legal address, and
no whole line has arrived (44_io.md R171, R177; 60_exceptions.md R220). -/
def State.blocked (s : State) : Prop :=
  s.status = .running ∧ s.ip.toNat ≤ 4095 ∧ s.data.read s.ip.toNat = 0x89#8 ∧
    (∃ k : Fin 256, k.val = s.sp.toNat ∧ (s.cell k).toNat ≤ 4095) ∧ 0x0A#8 ∉ s.input

/-- The states differ at most in stack cells below `sp`, which hold nothing that was pushed and not popped
(70_reset_and_hazards.md R243). -/
def State.agreeOnLive (s t : State) : Prop :=
  t = { s with stack := t.stack } ∧ ∀ k : Fin 256, s.sp.toNat ≤ k.val → t.cell k = s.cell k

/-- The instructions of a list, one after the other, by their rules alone (no fetch). -/
def execAll : List Instr → State → StepResult
  | [], s => .next s
  | i :: is, s =>
    match exec i s with
    | .next t => execAll is t
    | .fault f => .fault f
    | .refused r => .refused r

end Sys2Proof.Machine
end

