-- ==== Sys2Proof/WellFormed.lean ====
section
/-! DEFINITION. Which instructions are well formed: every register selector names one of R0 to R3
(30_encoding.md R62, R63, R69). Every immediate and every address value is accepted by the decoder (R65, R66). -/

namespace Sys2Proof

/-- A pair selector: both nibbles are register indices, 0 to 3 (30_encoding.md R62). -/
def pairOk (d r : Nibble) : Bool := decide (d.toNat ≤ 3) && decide (r.toNat ≤ 3)

/-- A single selector: the whole byte is a register index, 0 to 3 (30_encoding.md R63). -/
def oneOk (b : Byte) : Bool := decide (b.toNat ≤ 3)

/-- Every selector of the instruction names a register. -/
def Instr.wellFormed : Instr → Bool
  | .nop => true
  | .movRdRs d r => pairOk d r
  | .movxRdByteAddr d _ => oneOk d
  | .movRdWordAddr d _ => oneOk d
  | .movxRdImm8 d _ => oneOk d
  | .movRdImm16 d _ => oneOk d
  | .movByteAddrRs r _ => oneOk r
  | .movWordAddrRs r _ => oneOk r
  | .movByteRdRs d r => pairOk d r
  | .movxRdByteRs d r => pairOk d r
  | .jmp _ => true
  | .jz _ => true
  | .jnz _ => true
  | .jae _ => true
  | .jbe _ => true
  | .jb _ => true
  | .ja _ => true
  | .addRdImm16 d _ => oneOk d
  | .addRdRs d r => pairOk d r
  | .addlRdRs d r => pairOk d r
  | .addlRdImm8 d _ => oneOk d
  | .subRdImm16 d _ => oneOk d
  | .subRdRs d r => pairOk d r
  | .sublRdRs d r => pairOk d r
  | .sublRdImm8 d _ => oneOk d
  | .xorRdRs d r => pairOk d r
  | .xorlRdRs d r => pairOk d r
  | .cmpRdRs d r => pairOk d r
  | .cmplRdRs d r => pairOk d r
  | .pushRs r => oneOk r
  | .popRd d => oneOk d
  | .printInt => true
  | .printStr => true
  | .scanStr => true
  | .halt => true

end Sys2Proof
end

