-- ==== Sys2Proof/Certificates/Slice0/Obligations.lean ====
section
/-! DEFINITION. The statements for the provers. Each docstring says which rule of spec/ it formalises. A bracket such as
[D6, log 15] names what a statement rests on beside the source's own words: a decision of 92_eei_decisions.md or an
inference of a rule, which the spec marks as its own, and the entry of notes/assumptions/ that adopts it as the model's
choice. Three points hold of all of them and stand in no bracket: where two sections of the source differ, a rule is
taken as 90_conflicts.md resolves it (log 21); an instruction that is no ALU instruction leaves the flags alone by its
own rule's 'Flags: none written', which 10 R27 calls the spec's decision for every one but MOV (D20, log 24); and `exec`
is the instruction's rule in any status (log 27). -/

open Sys2Proof Sys2Proof.Machine

/-! ## Encoding (30_encoding.md) -/

/-- Decode and encode agree on every instruction, at every value of every operand field (30 R61, R62, R63, R65, R66,
R67). [D1, D2; log 11, log 12] -/
def Obligations.DecodeOfEncode : Prop :=
  ∀ (i : Instr) (rest : List Byte), decode (encode i ++ rest) = .ok (i, rest)

/-- No bit of an instruction is ignored (30 R69): the bytes a decoded instruction was read from are its encoding. [D1,
D2; log 11, log 12] -/
def Obligations.EncodeOfDecode : Prop :=
  ∀ (bs : List Byte) (i : Instr) (rest : List Byte), decode bs = .ok (i, rest) → bs = encode i ++ rest

/-- Words written out from the encodings of 30 R67 decode to the instruction they stand for, one per format. [D1, D2;
log 11, log 12] -/
def Obligations.SpecWordsDecode : Prop :=
  decode [0x10#8, 0x12#8] = .ok (.movRdRs 1#4 2#4, []) ∧
  decode [0x18#8, 0x00#8, 0x05#8, 0x00#8] = .ok (.movRdImm16 0#8 5#16, []) ∧
  decode [0x12#8, 0x02#8, 0x00#8, 0x01#8] = .ok (.movxRdByteAddr 2#8 0x0100#16, []) ∧
  decode [0x51#8, 0x02#8, 0x10#8] = .ok (.sublRdImm8 2#8 0x10#8, []) ∧
  decode [0xE0#8, 0x34#8, 0x12#8] = .ok (.jmp 0x1234#16, []) ∧
  decode [0xAF#8, 0x00#8] = .ok (.pushRs 0#8, []) ∧
  decode [0x89#8] = .ok (.scanStr, []) ∧
  decode [0xFF#8] = .error .invalidOpcode

/-- The opcode bytes of 30 R68, and no others, raise InvalidOpcode when fetched. (What such a fault leaves alone is
`FaultsArePrecise`.) That an illegal opcode at address 4095 is reported so, and that a legal opcode whose operand bytes
run past 4095 is not, is the order of 30 R72 and 60 R204. [D3, D4; log 13] -/
def Obligations.IllegalOpcodesFault : Prop :=
  ∀ s : State, s.status = .running → s.ip.toNat ≤ 4095 →
    (illegalOpcode (s.data.read s.ip.toNat) = true → ∃ t, step s = .next t ∧ t.status = .faulted .invalidOpcode) ∧
    (illegalOpcode (s.data.read s.ip.toNat) = false → ∀ t, step s = .next t → t.status ≠ .faulted .invalidOpcode)

/-- A selector that names no register faults with InvalidRegisterSelector, whatever the instruction, and nothing else
changes (30 R62, R63; 60_exceptions.md R202 code 2, R206). That this reason is the one reported where the stack check or
the address check would fail too is the order of 60 R204, which is the spec's decision D4 and the model's choice in log
13. [D1, D4, D6; log 11, log 13, log 15] -/
def Obligations.InvalidSelectorFaults : Prop :=
  ∀ (i : Instr) (s : State), i.wellFormed = false → exec i s = .next (s.withFault .invalidRegisterSelector)

/-! ## The fetch-decode step and the sequencer (30_encoding.md R72, 60_exceptions.md) -/

/-- A step runs the instruction that the fetched bytes decode to, and does nothing else around it (30 R72). [D2; log 12]
-/
def Obligations.StepRunsDecoded : Prop :=
  ∀ (s : State) (i : Instr) (rest : List Byte), s.status = .running → decode s.fetchBytes = .ok (i, rest) →
    i.wellFormed = true → step s = exec i s

/-- A step runs the instruction whose encoding lies in `data` at `ip` (30 R60, R72). [D2; log 12] -/
def Obligations.StepRunsEncodingInData : Prop :=
  ∀ (s : State) (i : Instr), s.status = .running → s.ip.toNat + i.length ≤ 4096 →
    (∀ (k : Nat) (h : k < (encode i).length), s.data.read (s.ip.toNat + k) = (encode i)[k]) → step s = exec i s

/-- A fetch past address 4095 faults with OutOfBoundsAddress: the opcode's own, and that of an operand byte of a legal
opcode (30 R72). Nothing else changes (30 R73). [D3, D4, D6; log 13, log 15] -/
def Obligations.FetchPastEndFaults : Prop :=
  ∀ s : State, s.status = .running →
    (4095 < s.ip.toNat → step s = .next (s.withFault .outOfBoundsAddress)) ∧
    (∀ i : Instr, s.ip.toNat ≤ 4095 → s.data.read s.ip.toNat = i.opcode → 4096 < s.ip.toNat + i.length →
      step s = .next (s.withFault .outOfBoundsAddress))

/-- Halted and Faulted are terminal: no step follows (60 R200). How a missing step is answered is the model's choice
(log 4). -/
def Obligations.TerminalHasNoStep : Prop :=
  ∀ s : State, (s.status = .halted → step s = .fault .runHalted) ∧
    (∀ r, s.status = .faulted r → step s = .fault (.runFaulted r))

/-- A running machine in a legal state has a step unless it is blocked in SCAN_STR: nothing but the end of the run and a
missing line stops it, and no instruction is refused. Blocked, it has no step until the host returns a line, and then it
has one (60 R200, R220). Three points are the model's choice. That a missing line is an input without 0x0A, and that an
answer is the host's bytes with 0x0A after them, is the spec's decision D12 of 44 R171 (log 17), for the field of log 1.
That a missing step is answered by `awaitingLine`, and a fault of the spec by a next state, is log 2 and log 4. That the
output sink takes its bytes at once is log 3, from D23 of 44 R170. A state with `sp` above 256 is outside the statement
(log 9). [D12, D23; log 1, log 2, log 3, log 4, log 9, log 17] -/
def Obligations.RunningStepsUnlessBlocked : Prop :=
  ∀ s : State, s.sp.toNat ≤ 256 → s.status = .running →
    (¬ s.blocked → ∃ t, step s = .next t) ∧
    (s.blocked → step s = .fault .awaitingLine ∧ ∀ line, ∃ t, step (s.supplyLine line) = .next t)

/-- Faults are precise but for the partial effects of the faulting PRINT_STR and SCAN_STR (60 R203, R206, R207):
registers, flags, `ip` and the stack cells are kept by every fault, and everything but `status` by every fault of any
other instruction. That the line a faulting SCAN_STR takes ends at the first 0x0A, which is consumed, is the spec's
decision D12 of 44 R171 (log 17), for the field of log 1. That a fault saves only its reason is D24 (log 25), and that a
popped address above 4095 is reported before a line or a terminator is looked for is D4 (log 13). [R206 and R207 are
inferences; D4, D6, D10, D11, D12, D23, D24; log 1, log 3, log 7, log 8, log 13, log 15, log 17, log 25] -/
def Obligations.FaultsArePrecise : Prop :=
  ∀ (s t : State) (r : FaultReason), step s = .next t → t.status = .faulted r →
    t = s.withFault r ∨
    (s.data.read s.ip.toNat ∈ [0xC2#8, 0x89#8] ∧ r = .outOfBoundsAddress ∧
      t = { s with sp := s.sp + 1#16, status := .faulted r }) ∨
    (s.data.read s.ip.toNat = 0xC2#8 ∧ r = .unterminatedOrOversizedIO ∧
      t = { s with sp := s.sp + 1#16, status := .faulted r, output := t.output, draws := t.draws } ∧
      ∃ (a : Fin 256) (n : Nat), a.val = s.sp.toNat ∧
        t.output = s.output ++ (((List.range' (s.cell a).toNat (4096 - (s.cell a).toNat)).map s.data.read).take n)) ∨
    (s.data.read s.ip.toNat = 0x89#8 ∧ r = .unterminatedOrOversizedIO ∧
      t = { s with sp := s.sp + 1#16, status := .faulted r, input := t.input, data := t.data, draws := t.draws } ∧
      (∃ line, s.input = line ++ 0x0A#8 :: t.input ∧ 0x0A#8 ∉ line) ∧
      ∃ a : Fin 256, a.val = s.sp.toNat ∧ ∀ b, b < (s.cell a).toNat → t.data.read b = s.data.read b)

/-- HALT is the only instruction that ends the run normally (41 R119, 45 R190). -/
def Obligations.OnlyHaltHalts : Prop :=
  ∀ s t : State, step s = .next t → t.status = .halted → s.data.read s.ip.toNat = 0xED#8

/-- HALT sets `ip` to `a + 1` and `status` to Halted, and changes nothing else (45 R190). [D16; log 15] -/
def Obligations.HaltEndsTheRun : Prop :=
  encode .halt = [0xED#8] ∧
  ∀ s : State, exec .halt s = .next { s with ip := s.ip + 1#16, status := .halted }

/-- Every instruction that completes, HALT included, advances `ip` by its own length, but for the jumps, which may go to
a target below 4096 (10_state.md R24). [D16; log 15] -/
def Obligations.IpAdvancesByLength : Prop :=
  ∀ (i : Instr) (s t : State), s.status = .running → exec i s = .next t → (∀ r, t.status ≠ .faulted r) →
    t.ip = s.ip + BitVec.ofNat 16 i.length ∨ (i.opcode ∈ jumpOpcodes ∧ t.ip.toNat ≤ 4095)

/-! ## Reset and load (10_state.md R34, 70_reset_and_hazards.md) -/

/-- The start state of 10 R34: registers, flags, `ip`, `sp` and `status`. `State.reset` is that state for the empty
image. [log 10] -/
def Obligations.ResetValues : Prop :=
  (∀ i, State.reset.reg i = 0#16) ∧ State.reset.zf = false ∧ State.reset.cf = false ∧ State.reset.ip = 0#16 ∧
    State.reset.sp = 256#16 ∧ State.reset.status = .running

/-- The start of a run (10 R34, 70 R240): after the load of an image of at most 4096 bytes, the registers and flags are
0, `ip` is 0, `sp` is 256, `status` is Running, the image lies in `data` from address 0, and the bytes past it are
`INIT_TAIL`, here any canonical memory. A longer image starts no run (70 R242). The last clause fixes the rest as the
model chooses it: the stack cells 0 (log 6), no output yet (log 3), no draw yet (log 7, log 8), and the input as given
(log 1). [D7, D8, D22; log 1, log 3, log 5, log 6, log 7, log 8, log 10, log 31] -/
def Obligations.LoadCopiesImage : Prop :=
  ∀ (image : List Byte) (initial : Memory) (input : List Byte),
    (4096 < image.length → State.load image initial input = none) ∧
    (image.length ≤ 4096 → initial.wf → ∃ s, State.load image initial input = some s ∧
      (∀ i, s.reg i = 0#16) ∧ s.zf = false ∧ s.cf = false ∧ s.ip = 0#16 ∧ s.sp = 256#16 ∧ s.status = .running ∧
      s.data.wf ∧ (∀ (a : Nat) (h : a < image.length), s.data.read a = image[a]) ∧
      (∀ a, image.length ≤ a → s.data.read a = initial.read a) ∧
      s = { State.reset with data := s.data, input := input })

/-! ## The invariant -/

/-- `data` stays canonical, `sp` stays in 0..256 (10 R29) and `ip` stays at most 4096 (10 R24), over every step.
[inferences of R24 and R29; D3, D6, D16; log 5, log 13, log 15] -/
def Obligations.StepKeepsInv : Prop :=
  ∀ s t : State, s.Inv → step s = .next t → t.Inv

/-- The invariant holds at the start. [log 5, log 10] -/
def Obligations.ResetHasInv : Prop := State.reset.Inv

/-! ## Data movement (40_data_movement.md) -/

/-- NOP advances `ip` and changes nothing else (40 R90). -/
def Obligations.NopOnlyAdvances : Prop :=
  encode .nop = [0x90#8] ∧ ∀ s : State, exec .nop s = .next { s with ip := s.ip + 1#16 }

/-- MOV Rd,Rs copies the old value of Rs to Rd (40 R91). [D6; log 15] -/
def Obligations.MovCopiesRegister : Prop :=
  ∀ (d r : Nibble) (s : State), encode (.movRdRs d r) = [0x10#8, pairByte d r] ∧
    (3 < d.toNat ∨ 3 < r.toNat → exec (.movRdRs d r) s = .next (s.withFault .invalidRegisterSelector)) ∧
    (∀ i j : RegIx, d = i.nibble → r = j.nibble →
      ∃ t, exec (.movRdRs d r) s = .next t ∧ s.wroteReg i (s.reg j).toNat 2 t)

/-- MOVX Rd,BYTE[addr] loads a byte and clears bits 15:8 of Rd (40 R92). [D1, D2, D4, D6; log 11, log 12, log 13, log
15] -/
def Obligations.MovxLoadsByteAbsolute : Prop :=
  ∀ (d : Byte) (addr : Word) (s : State),
    encode (.movxRdByteAddr d addr) = [0x12#8, d, loByte addr, hiByte addr] ∧
    (3 < d.toNat → exec (.movxRdByteAddr d addr) s = .next (s.withFault .invalidRegisterSelector)) ∧
    (∀ i : RegIx, d = i.byte →
      (4095 < addr.toNat → exec (.movxRdByteAddr d addr) s = .next (s.withFault .outOfBoundsAddress)) ∧
      (addr.toNat ≤ 4095 → ∃ t, exec (.movxRdByteAddr d addr) s = .next t ∧
        s.wroteReg i (s.data.read addr.toNat).toNat 4 t))

/-- MOV Rd,WORD[addr] loads a little-endian word (40 R93). [D1, D2, D4, D6; log 11, log 12, log 13, log 15] -/
def Obligations.MovLoadsWordAbsolute : Prop :=
  ∀ (d : Byte) (addr : Word) (s : State),
    encode (.movRdWordAddr d addr) = [0x14#8, d, loByte addr, hiByte addr] ∧
    (3 < d.toNat → exec (.movRdWordAddr d addr) s = .next (s.withFault .invalidRegisterSelector)) ∧
    (∀ i : RegIx, d = i.byte →
      (4094 < addr.toNat → exec (.movRdWordAddr d addr) s = .next (s.withFault .outOfBoundsAddress)) ∧
      (addr.toNat ≤ 4094 → ∃ t, exec (.movRdWordAddr d addr) s = .next t ∧
        s.wroteReg i ((s.data.read addr.toNat).toNat + 256 * (s.data.read (addr.toNat + 1)).toNat) 4 t))

/-- MOVX Rd,imm8 zero-extends its immediate (40 R94). [D1, D2, D6; log 11, log 12, log 15] -/
def Obligations.MovxLoadsImmediateByte : Prop :=
  ∀ (d imm : Byte) (s : State), encode (.movxRdImm8 d imm) = [0x16#8, d, imm] ∧
    (3 < d.toNat → exec (.movxRdImm8 d imm) s = .next (s.withFault .invalidRegisterSelector)) ∧
    (∀ i : RegIx, d = i.byte → ∃ t, exec (.movxRdImm8 d imm) s = .next t ∧ s.wroteReg i imm.toNat 3 t)

/-- MOV Rd,imm16 loads its immediate (40 R95). [D1, D2, D6; log 11, log 12, log 15] -/
def Obligations.MovLoadsImmediateWord : Prop :=
  ∀ (d : Byte) (imm : Word) (s : State), encode (.movRdImm16 d imm) = [0x18#8, d, loByte imm, hiByte imm] ∧
    (3 < d.toNat → exec (.movRdImm16 d imm) s = .next (s.withFault .invalidRegisterSelector)) ∧
    (∀ i : RegIx, d = i.byte → ∃ t, exec (.movRdImm16 d imm) s = .next t ∧ s.wroteReg i imm.toNat 4 t)

/-- MOV BYTE[addr],Rs stores the low byte of Rs at `addr`; every other byte reads as before (40 R96). [D1, D2, D4, D6;
log 11, log 12, log 13, log 15] -/
def Obligations.MovStoresByteAbsolute : Prop :=
  ∀ (r : Byte) (addr : Word) (s : State),
    encode (.movByteAddrRs r addr) = [0x1C#8, r, loByte addr, hiByte addr] ∧
    (3 < r.toNat → exec (.movByteAddrRs r addr) s = .next (s.withFault .invalidRegisterSelector)) ∧
    (∀ i : RegIx, r = i.byte →
      (4095 < addr.toNat → exec (.movByteAddrRs r addr) s = .next (s.withFault .outOfBoundsAddress)) ∧
      (addr.toNat ≤ 4095 → ∃ t, exec (.movByteAddrRs r addr) s = .next t ∧
        (s.data.wf → t.data.wf ∧ (t.data.read addr.toNat).toNat = (s.reg i).toNat % 256) ∧
        (∀ a, a ≠ addr.toNat → t.data.read a = s.data.read a) ∧ t = { s with data := t.data, ip := s.ip + 4#16 }))

/-- MOV WORD[addr],Rs stores Rs little-endian at `addr` and `addr + 1`; every other byte reads as before (40 R97). [D1,
D2, D4, D6; log 11, log 12, log 13, log 15] -/
def Obligations.MovStoresWordAbsolute : Prop :=
  ∀ (r : Byte) (addr : Word) (s : State),
    encode (.movWordAddrRs r addr) = [0x1F#8, r, loByte addr, hiByte addr] ∧
    (3 < r.toNat → exec (.movWordAddrRs r addr) s = .next (s.withFault .invalidRegisterSelector)) ∧
    (∀ i : RegIx, r = i.byte →
      (4094 < addr.toNat → exec (.movWordAddrRs r addr) s = .next (s.withFault .outOfBoundsAddress)) ∧
      (addr.toNat ≤ 4094 → ∃ t, exec (.movWordAddrRs r addr) s = .next t ∧
        (s.data.wf → t.data.wf ∧ (t.data.read addr.toNat).toNat = (s.reg i).toNat % 256 ∧
          (t.data.read (addr.toNat + 1)).toNat = (s.reg i).toNat / 256) ∧
        (∀ a, a ≠ addr.toNat → a ≠ addr.toNat + 1 → t.data.read a = s.data.read a) ∧
        t = { s with data := t.data, ip := s.ip + 4#16 }))

/-- MOV BYTE[Rd],Rs stores the low byte of Rs at the address Rd holds; every other byte reads as before (40 R98). [D4,
D6; log 13, log 15] -/
def Obligations.MovStoresByteIndirect : Prop :=
  ∀ (d r : Nibble) (s : State), encode (.movByteRdRs d r) = [0x55#8, pairByte d r] ∧
    (3 < d.toNat ∨ 3 < r.toNat → exec (.movByteRdRs d r) s = .next (s.withFault .invalidRegisterSelector)) ∧
    (∀ i j : RegIx, d = i.nibble → r = j.nibble →
      (4095 < (s.reg i).toNat → exec (.movByteRdRs d r) s = .next (s.withFault .outOfBoundsAddress)) ∧
      ((s.reg i).toNat ≤ 4095 → ∃ t, exec (.movByteRdRs d r) s = .next t ∧
        (s.data.wf → t.data.wf ∧ (t.data.read (s.reg i).toNat).toNat = (s.reg j).toNat % 256) ∧
        (∀ a, a ≠ (s.reg i).toNat → t.data.read a = s.data.read a) ∧
        t = { s with data := t.data, ip := s.ip + 2#16 }))

/-- MOVX Rd,BYTE[Rs] loads the byte at the address Rs holds and clears bits 15:8 of Rd; with Rd and Rs the same register
the address is read first (40 R99). [D4, D6; log 13, log 15] -/
def Obligations.MovxLoadsByteIndirect : Prop :=
  ∀ (d r : Nibble) (s : State), encode (.movxRdByteRs d r) = [0x56#8, pairByte d r] ∧
    (3 < d.toNat ∨ 3 < r.toNat → exec (.movxRdByteRs d r) s = .next (s.withFault .invalidRegisterSelector)) ∧
    (∀ i j : RegIx, d = i.nibble → r = j.nibble →
      (4095 < (s.reg j).toNat → exec (.movxRdByteRs d r) s = .next (s.withFault .outOfBoundsAddress)) ∧
      ((s.reg j).toNat ≤ 4095 → ∃ t, exec (.movxRdByteRs d r) s = .next t ∧
        s.wroteReg i (s.data.read (s.reg j).toNat).toNat 2 t))

/-- A data-movement instruction writes no flag; it completes and advances `ip` by its own length, or it faults and
changes nothing but `status` (40 R100). [R100 is an inference; D6, D20; log 15, log 24] -/
def Obligations.DataMovementCompletesOrFaultsWhole : Prop :=
  ∀ (i : Instr) (s : State), i.opcode ∈ dataMovementOpcodes → ∃ t, exec i s = .next t ∧
    t.zf = s.zf ∧ t.cf = s.cf ∧
    ((∃ r, t = s.withFault r) ∨ (t.ip = s.ip + BitVec.ofNat 16 i.length ∧ t.status = s.status))

/-! ## Control transfer (41_control_transfer.md) -/

/-- The seven jumps with a target in `data`: each goes to its target exactly when its condition of 41 R111 holds, and
to `a + 3` otherwise, and changes nothing but `ip` (41 R112 to R118). -/
def Obligations.JumpsFollowTheirConditions : Prop :=
  ∀ (t : Word) (s : State), t.toNat ≤ 4095 →
    exec (.jmp t) s = .next { s with ip := t } ∧
    exec (.jz t) s = .next { s with ip := if s.zf = true then t else s.ip + 3#16 } ∧
    exec (.jnz t) s = .next { s with ip := if s.zf = false then t else s.ip + 3#16 } ∧
    exec (.jae t) s = .next { s with ip := if s.zf = true ∨ s.cf = false then t else s.ip + 3#16 } ∧
    exec (.jbe t) s = .next { s with ip := if s.zf = true ∨ s.cf = true then t else s.ip + 3#16 } ∧
    exec (.jb t) s = .next { s with ip := if s.cf = true ∧ s.zf = false then t else s.ip + 3#16 } ∧
    exec (.ja t) s = .next { s with ip := if s.cf = false ∧ s.zf = false then t else s.ip + 3#16 }

/-- A jump whose target is above 4095 faults with OutOfBoundsAddress, taken or not, and `ip` stays (41 R110). [D5, D6;
log 14, log 15] -/
def Obligations.JumpOutOfRangeFaults : Prop :=
  ∀ (t : Word) (s : State), 4095 < t.toNat →
    ∀ i ∈ [Instr.jmp t, .jz t, .jnz t, .jae t, .jbe t, .jb t, .ja t],
      exec i s = .next (s.withFault .outOfBoundsAddress)

/-- After CMP and after CMPL the jumps order the two operands as unsigned numbers (41 R116, R117, R118; 42 R135): JB is
`<`, JBE is `≤`, JA is `>`, JAE is `≥`, JZ is `=` and JNZ is `≠`. [inferences of R116, R117 and R118] -/
def Obligations.ComparedJumpsOrderUnsigned : Prop :=
  ∀ (i j : RegIx) (s : State), ∃ w b : State,
    exec (.cmpRdRs i.nibble j.nibble) s = .next w ∧ exec (.cmplRdRs i.nibble j.nibble) s = .next b ∧
    ∀ c : State, ∀ p q : Nat,
      (c = w ∧ p = (s.reg i).toNat ∧ q = (s.reg j).toNat) ∨
        (c = b ∧ p = (s.reg i).toNat % 256 ∧ q = (s.reg j).toNat % 256) →
      ∀ t : Word, t.toNat ≤ 4095 →
        exec (.jb t) c = .next { c with ip := if p < q then t else c.ip + 3#16 } ∧
        exec (.jbe t) c = .next { c with ip := if p ≤ q then t else c.ip + 3#16 } ∧
        exec (.ja t) c = .next { c with ip := if q < p then t else c.ip + 3#16 } ∧
        exec (.jae t) c = .next { c with ip := if q ≤ p then t else c.ip + 3#16 } ∧
        exec (.jz t) c = .next { c with ip := if p = q then t else c.ip + 3#16 } ∧
        exec (.jnz t) c = .next { c with ip := if p ≠ q then t else c.ip + 3#16 }

/-! ## Arithmetic (42_arithmetic.md) -/

/-- The ALU functions of 42 R130, R131, R132, R133 and R135: the result and both flags of AddW, SubW, AddB and SubB, and
both flags of CmpW and CmpB. -/
def Obligations.AluFunctionsFollowTheirRules : Prop :=
  (∀ p q : Word,
    ((addW p q).res.toNat = (p.toNat + q.toNat) % 65536 ∧
      ((addW p q).zf = true ↔ (addW p q).res.toNat = 0) ∧ ((addW p q).cf = true ↔ (addW p q).res.toNat < p.toNat)) ∧
    (((subW p q).res.toNat : Int) = ((p.toNat : Int) - q.toNat) % 65536 ∧
      ((subW p q).zf = true ↔ (subW p q).res.toNat = 0) ∧ ((subW p q).cf = true ↔ p.toNat < (subW p q).res.toNat)) ∧
    (cmpZfW p q = true ↔ p.toNat = q.toNat) ∧ (cmpCfW p q = true ↔ p.toNat < q.toNat)) ∧
  (∀ p q : Byte,
    ((addB p q).res.toNat = (p.toNat + q.toNat) % 256 ∧
      ((addB p q).zf = true ↔ (addB p q).res.toNat = 0) ∧ ((addB p q).cf = true ↔ (addB p q).res.toNat < p.toNat)) ∧
    (((subB p q).res.toNat : Int) = ((p.toNat : Int) - q.toNat) % 256 ∧
      ((subB p q).zf = true ↔ (subB p q).res.toNat = 0) ∧ ((subB p q).cf = true ↔ p.toNat < (subB p q).res.toNat)) ∧
    (cmpZfB p q = true ↔ p.toNat = q.toNat) ∧ (cmpCfB p q = true ↔ p.toNat < q.toNat))

/-- ADD, both forms: Rd wraps modulo 65536 and the flags follow the word rule (42 R137, R138, R130). [D1, D2, D6; log
11, log 12, log 15] -/
def Obligations.AddWord : Prop :=
  ∀ s : State,
    (∀ d r : Nibble, encode (.addRdRs d r) = [0xA5#8, pairByte d r] ∧
      (3 < d.toNat ∨ 3 < r.toNat → exec (.addRdRs d r) s = .next (s.withFault .invalidRegisterSelector)) ∧
      ∀ i j : RegIx, d = i.nibble → r = j.nibble → ∃ t, exec (.addRdRs d r) s = .next t ∧
        let p := (s.reg i).toNat
        let v := (p + (s.reg j).toNat) % 65536
        s.wroteAlu i v (decide (v = 0)) (decide (v < p)) 2 t) ∧
    (∀ (d : Byte) (imm : Word), encode (.addRdImm16 d imm) = [0xAD#8, d, loByte imm, hiByte imm] ∧
      (3 < d.toNat → exec (.addRdImm16 d imm) s = .next (s.withFault .invalidRegisterSelector)) ∧
      ∀ i : RegIx, d = i.byte → ∃ t, exec (.addRdImm16 d imm) s = .next t ∧
        let p := (s.reg i).toNat
        let v := (p + imm.toNat) % 65536
        s.wroteAlu i v (decide (v = 0)) (decide (v < p)) 4 t)

/-- ADDL, both forms: the low byte of Rd wraps modulo 256, bits 15:8 keep their value, and the flags follow the byte
rule (42 R139, R140, R132). [D1, D2, D6; log 11, log 12, log 15] -/
def Obligations.AddLowByte : Prop :=
  ∀ s : State,
    (∀ d r : Nibble, encode (.addlRdRs d r) = [0xA2#8, pairByte d r] ∧
      (3 < d.toNat ∨ 3 < r.toNat → exec (.addlRdRs d r) s = .next (s.withFault .invalidRegisterSelector)) ∧
      ∀ i j : RegIx, d = i.nibble → r = j.nibble → ∃ t, exec (.addlRdRs d r) s = .next t ∧
        let p := (s.reg i).toNat % 256
        let v := (p + (s.reg j).toNat % 256) % 256
        s.wroteAlu i ((s.reg i).toNat / 256 * 256 + v) (decide (v = 0)) (decide (v < p)) 2 t) ∧
    (∀ d imm : Byte, encode (.addlRdImm8 d imm) = [0xA1#8, d, imm] ∧
      (3 < d.toNat → exec (.addlRdImm8 d imm) s = .next (s.withFault .invalidRegisterSelector)) ∧
      ∀ i : RegIx, d = i.byte → ∃ t, exec (.addlRdImm8 d imm) s = .next t ∧
        let p := (s.reg i).toNat % 256
        let v := (p + imm.toNat) % 256
        s.wroteAlu i ((s.reg i).toNat / 256 * 256 + v) (decide (v = 0)) (decide (v < p)) 3 t)

/-- SUB, both forms: Rd wraps modulo 65536 and the flags follow the subtract rule (42 R141, R142, R131). [D1, D2, D6;
log 11, log 12, log 15] -/
def Obligations.SubWord : Prop :=
  ∀ s : State,
    (∀ d r : Nibble, encode (.subRdRs d r) = [0x5C#8, pairByte d r] ∧
      (3 < d.toNat ∨ 3 < r.toNat → exec (.subRdRs d r) s = .next (s.withFault .invalidRegisterSelector)) ∧
      ∀ i j : RegIx, d = i.nibble → r = j.nibble → ∃ t, exec (.subRdRs d r) s = .next t ∧
        let p := (s.reg i).toNat
        let v := (65536 + p - (s.reg j).toNat) % 65536
        s.wroteAlu i v (decide (v = 0)) (decide (p < v)) 2 t) ∧
    (∀ (d : Byte) (imm : Word), encode (.subRdImm16 d imm) = [0x5B#8, d, loByte imm, hiByte imm] ∧
      (3 < d.toNat → exec (.subRdImm16 d imm) s = .next (s.withFault .invalidRegisterSelector)) ∧
      ∀ i : RegIx, d = i.byte → ∃ t, exec (.subRdImm16 d imm) s = .next t ∧
        let p := (s.reg i).toNat
        let v := (65536 + p - imm.toNat) % 65536
        s.wroteAlu i v (decide (v = 0)) (decide (p < v)) 4 t)

/-- SUBL, both forms: the low byte of Rd wraps modulo 256, bits 15:8 keep their value, and the flags follow the byte
subtract rule (42 R143, R144, R133). [D1, D2, D6; log 11, log 12, log 15] -/
def Obligations.SubLowByte : Prop :=
  ∀ s : State,
    (∀ d r : Nibble, encode (.sublRdRs d r) = [0x5D#8, pairByte d r] ∧
      (3 < d.toNat ∨ 3 < r.toNat → exec (.sublRdRs d r) s = .next (s.withFault .invalidRegisterSelector)) ∧
      ∀ i j : RegIx, d = i.nibble → r = j.nibble → ∃ t, exec (.sublRdRs d r) s = .next t ∧
        let p := (s.reg i).toNat % 256
        let v := (256 + p - (s.reg j).toNat % 256) % 256
        s.wroteAlu i ((s.reg i).toNat / 256 * 256 + v) (decide (v = 0)) (decide (p < v)) 2 t) ∧
    (∀ d imm : Byte, encode (.sublRdImm8 d imm) = [0x51#8, d, imm] ∧
      (3 < d.toNat → exec (.sublRdImm8 d imm) s = .next (s.withFault .invalidRegisterSelector)) ∧
      ∀ i : RegIx, d = i.byte → ∃ t, exec (.sublRdImm8 d imm) s = .next t ∧
        let p := (s.reg i).toNat % 256
        let v := (256 + p - imm.toNat) % 256
        s.wroteAlu i ((s.reg i).toNat / 256 * 256 + v) (decide (v = 0)) (decide (p < v)) 3 t)

/-- XOR Rd,Rs (42 R145): the bits of Rd are those of the exclusive OR, `zf` tests the result and `cf` is 0. With one
register as both operands it clears that register. [D6; log 15] -/
def Obligations.XorWord : Prop :=
  ∀ (d r : Nibble) (s : State), encode (.xorRdRs d r) = [0xF0#8, pairByte d r] ∧
    (3 < d.toNat ∨ 3 < r.toNat → exec (.xorRdRs d r) s = .next (s.withFault .invalidRegisterSelector)) ∧
    (∀ i j : RegIx, d = i.nibble → r = j.nibble → ∃ t, exec (.xorRdRs d r) s = .next t ∧
      (∀ n, n < 16 → (t.reg i).getLsbD n = ((s.reg i).getLsbD n != (s.reg j).getLsbD n)) ∧
      s.wroteAlu i (t.reg i).toNat (decide ((t.reg i).toNat = 0)) false 2 t ∧ (i = j → t.reg i = 0#16 ∧ t.zf = true))

/-- XORL Rd,Rs (42 R146): the low byte of Rd becomes the exclusive OR of the low bytes, bits 15:8 keep their value, `zf`
tests the 8-bit result and `cf` is 0. [D6, D25; log 15, log 20] -/
def Obligations.XorLowByte : Prop :=
  ∀ (d r : Nibble) (s : State), encode (.xorlRdRs d r) = [0xF1#8, pairByte d r] ∧
    (3 < d.toNat ∨ 3 < r.toNat → exec (.xorlRdRs d r) s = .next (s.withFault .invalidRegisterSelector)) ∧
    (∀ i j : RegIx, d = i.nibble → r = j.nibble → ∃ t, exec (.xorlRdRs d r) s = .next t ∧
      (∀ n, n < 8 → (t.reg i).getLsbD n = ((s.reg i).getLsbD n != (s.reg j).getLsbD n)) ∧
      (∀ n, 8 ≤ n → (t.reg i).getLsbD n = (s.reg i).getLsbD n) ∧
      s.wroteAlu i (t.reg i).toNat (decide ((t.reg i).toNat % 256 = 0)) false 2 t)

/-- CMP Rd,Rs sets `zf` to equality and `cf` to `Rs > Rd`, and changes nothing but the flags and `ip` (42 R147). [D6;
log 15] -/
def Obligations.CmpWord : Prop :=
  ∀ (d r : Nibble) (s : State), encode (.cmpRdRs d r) = [0x70#8, pairByte d r] ∧
    (3 < d.toNat ∨ 3 < r.toNat → exec (.cmpRdRs d r) s = .next (s.withFault .invalidRegisterSelector)) ∧
    (∀ i j : RegIx, d = i.nibble → r = j.nibble → exec (.cmpRdRs d r) s =
      .next { s with zf := decide ((s.reg i).toNat = (s.reg j).toNat), cf := decide ((s.reg i).toNat < (s.reg j).toNat),
                     ip := s.ip + 2#16 })

/-- CMPL Rd,Rs does the same on the low bytes alone (42 R148). [D6; log 15] -/
def Obligations.CmpLowByte : Prop :=
  ∀ (d r : Nibble) (s : State), encode (.cmplRdRs d r) = [0x71#8, pairByte d r] ∧
    (3 < d.toNat ∨ 3 < r.toNat → exec (.cmplRdRs d r) s = .next (s.withFault .invalidRegisterSelector)) ∧
    (∀ i j : RegIx, d = i.nibble → r = j.nibble → exec (.cmplRdRs d r) s =
      .next { s with zf := decide ((s.reg i).toNat % 256 = (s.reg j).toNat % 256),
                     cf := decide ((s.reg i).toNat % 256 < (s.reg j).toNat % 256), ip := s.ip + 2#16 })

/-- The carry of an add is the carry out, the carry of a subtract is the borrow, and a compare gives the flags of the
subtract, for words and for bytes (42 R136 (a), (b), (c)). [R136 is an inference] -/
def Obligations.CarryIsCarryOut : Prop :=
  (∀ p q : Word, (addW p q).cf = decide (65536 ≤ p.toNat + q.toNat) ∧ (subW p q).cf = decide (p.toNat < q.toNat) ∧
    cmpZfW p q = (subW p q).zf ∧ cmpCfW p q = (subW p q).cf) ∧
  (∀ p q : Byte, (addB p q).cf = decide (256 ≤ p.toNat + q.toNat) ∧ (subB p q).cf = decide (p.toNat < q.toNat) ∧
    cmpZfB p q = (subB p q).zf ∧ cmpCfB p q = (subB p q).cf)

/-- `zf` and `cf` come to be 1 together only by ADD or ADDL (42 R136 (d), 41 R111). [an inference of R136 (d); D20; log
24] -/
def Obligations.BothFlagsOnlyFromAdd : Prop :=
  ∀ (i : Instr) (s t : State), exec i s = .next t → t.zf = true → t.cf = true →
    (s.zf = true ∧ s.cf = true) ∨ i.opcode ∈ addOpcodes

/-- Every ALU instruction has a next state: either InvalidRegisterSelector was raised and nothing else changed, or at
most its destination register, the flags and `ip` were written; CMP and CMPL have no destination (42 R149, R147, R148).
[R149 is an inference; D6; log 15] -/
def Obligations.AluWritesOneRegisterAndFlags : Prop :=
  ∀ (i : Instr) (s : State), i.opcode ∈ aluOpcodes → ∃ t, exec i s = .next t ∧
    (t = s.withFault .invalidRegisterSelector ∨
      (t = { s with x := t.x, zf := t.zf, cf := t.cf, ip := s.ip + BitVec.ofNat 16 i.length } ∧
        ∀ k : RegIx, i.destination ≠ some k.val → t.reg k = s.reg k))

/-! ## The stack (43_stack.md) -/

/-- PUSH Rs (43 R160): a full stack overflows; otherwise `sp` goes down by one and the cell there holds Rs. [an
inference of R51; D1, D4, D6; log 11, log 13, log 15, log 32] -/
def Obligations.PushStores : Prop :=
  ∀ (r : Byte) (s : State), encode (.pushRs r) = [0xAF#8, r] ∧
    (3 < r.toNat → exec (.pushRs r) s = .next (s.withFault .invalidRegisterSelector)) ∧
    (∀ i : RegIx, r = i.byte →
      (s.sp.toNat = 0 → exec (.pushRs r) s = .next (s.withFault .stackOverflow)) ∧
      (0 < s.sp.toNat → s.sp.toNat ≤ 256 → ∃ t, exec (.pushRs r) s = .next t ∧
        (∀ k : Fin 256, t.cell k = if k.val + 1 = s.sp.toNat then s.reg i else s.cell k) ∧
        t = { s with stack := t.stack, sp := s.sp - 1#16, ip := s.ip + 2#16 }))

/-- POP Rd (43 R161): an empty stack underflows; otherwise Rd gets the cell at `sp` and `sp` goes up by one. [D1, D4,
D6; log 11, log 13, log 15, log 32] -/
def Obligations.PopLoads : Prop :=
  ∀ (d : Byte) (s : State), encode (.popRd d) = [0xAE#8, d] ∧
    (3 < d.toNat → exec (.popRd d) s = .next (s.withFault .invalidRegisterSelector)) ∧
    (∀ i : RegIx, d = i.byte →
      (s.sp.toNat = 256 → exec (.popRd d) s = .next (s.withFault .stackUnderflow)) ∧
      (∀ k : Fin 256, k.val = s.sp.toNat → ∃ t, exec (.popRd d) s = .next t ∧ t.reg i = s.cell k ∧
        (∀ j, j ≠ i → t.reg j = s.reg j) ∧ t = { s with x := t.x, sp := s.sp + 1#16, ip := s.ip + 2#16 }))

/-- A PUSH of Rs and a POP of Rd copy Rs to Rd through the stack and leave `sp`, the flags, the other registers and
every cell but the one used as they were; with the same register it is a round trip (43 R162). [an inference of R162;
D1; log 11, log 32] -/
def Obligations.PushThenPopCopies : Prop :=
  ∀ (i j : RegIx) (s : State), 0 < s.sp.toNat → s.sp.toNat ≤ 256 → ∃ t u,
    exec (.pushRs i.byte) s = .next t ∧ exec (.popRd j.byte) t = .next u ∧ u.reg j = s.reg i ∧
    (∀ k, k ≠ j → u.reg k = s.reg k) ∧ (∀ k : Fin 256, k.val + 1 ≠ s.sp.toNat → u.cell k = s.cell k) ∧
    u = { s with x := u.x, stack := u.stack, ip := s.ip + 4#16 }

/-- A stack with `n` free cells takes `n` pushes, and from the empty stack 256 succeed and leave `sp` 0, where the 257th
overflows (20_memory.md R51, 43 R160). [an inference of R51; D1, D6; log 11, log 15, log 32] -/
def Obligations.PushesFillTheStack : Prop :=
  ∀ (rs : List RegIx) (s : State), rs.length ≤ s.sp.toNat → s.sp.toNat ≤ 256 → ∃ t,
    execAll (rs.map fun i => .pushRs i.byte) s = .next t ∧ t.sp.toNat = s.sp.toNat - rs.length ∧
    (∀ (n : Nat) (h : n < rs.length) (k : Fin 256), k.val + n + 1 = s.sp.toNat → t.cell k = s.reg rs[n]) ∧
    (rs.length = s.sp.toNat → ∀ i : RegIx, exec (.pushRs i.byte) t = .next (t.withFault .stackOverflow))

/-! ## Input and output (44_io.md) -/

/-- PRINT_INT (44 R175): pops a word and emits its decimal text and a newline. [D6, D9, D23; log 3, log 15, log 16] -/
def Obligations.PrintIntEmitsDecimal : Prop :=
  encode .printInt = [0xC0#8] ∧
  ∀ s : State, (s.sp.toNat = 256 → exec .printInt s = .next (s.withFault .stackUnderflow)) ∧
    (∀ k : Fin 256, k.val = s.sp.toNat → exec .printInt s =
      .next { s with sp := s.sp + 1#16, ip := s.ip + 1#16, output := s.output ++ decStr (s.cell k) ++ [0x0A#8] })

/-- `DecStr(v)` is the unsigned decimal numeral of `v`: ASCII digits whose value is `v`, 1 to 5 of them, with no leading
zero unless it is the single digit 0 (44 R172). [D9; log 16] -/
def Obligations.DecStrIsTheNumeral : Prop :=
  ∀ v : Word, (decStr v).foldl (fun n b => 10 * n + (b.toNat - 0x30)) 0 = v.toNat ∧
    (∀ b ∈ decStr v, 0x30 ≤ b.toNat ∧ b.toNat ≤ 0x39) ∧ 1 ≤ (decStr v).length ∧ (decStr v).length ≤ 5 ∧
    ((decStr v).head? = some 0x30#8 → decStr v = [0x30#8])

/-- PRINT_STR (44 R176, R173): with the popped address in `data` and the first zero byte from it on at `e`, it emits the
bytes before `e` and completes. [D23; log 3] -/
def Obligations.PrintStrEmitsString : Prop :=
  ∀ (s : State) (k : Fin 256) (e : Nat), k.val = s.sp.toNat → (s.cell k).toNat ≤ e → e ≤ 4095 →
    s.data.read e = 0#8 → (∀ b, (s.cell k).toNat ≤ b → b < e → s.data.read b ≠ 0#8) →
    exec .printStr s = .next { s with
      sp := s.sp + 1#16, ip := s.ip + 1#16,
      output := s.output ++ (List.range' (s.cell k).toNat (e - (s.cell k).toNat)).map s.data.read }

/-- PRINT_STR's faults (44 R176, 60 R207): StackUnderflow with nothing changed; OutOfBoundsAddress with the pop done;
UnterminatedOrOversizedIO with the pop done and some prefix of `data[A..4095]` emitted. [D4, D6, D10, D23; log 3, log 7,
log 13, log 15] -/
def Obligations.PrintStrFaults : Prop :=
  ∀ s : State, (s.sp.toNat = 256 → exec .printStr s = .next (s.withFault .stackUnderflow)) ∧
    (∀ k : Fin 256, k.val = s.sp.toNat →
      (4095 < (s.cell k).toNat →
        exec .printStr s = .next { s with sp := s.sp + 1#16, status := .faulted .outOfBoundsAddress }) ∧
      ((s.cell k).toNat ≤ 4095 → (∀ b, (s.cell k).toNat ≤ b → b ≤ 4095 → s.data.read b ≠ 0#8) →
        ∃ t n, exec .printStr s = .next t ∧
          t = { s with
            sp := s.sp + 1#16, status := .faulted .unterminatedOrOversizedIO, draws := t.draws,
            output := s.output ++
              ((List.range' (s.cell k).toNat (4096 - (s.cell k).toNat)).map s.data.read).take n }))

/-- SCAN_STR (44 R177, R171, R174): with the popped address in `data` and a line that fits, it takes the line and its
0x0A from the input, stores the line and a zero byte, and changes no other byte of `data`. [D11, D12; log 1, log 17, log
22] -/
def Obligations.ScanStrStoresLine : Prop :=
  ∀ (s : State) (k : Fin 256) (ln rest : List Byte), k.val = s.sp.toNat →
    s.input = ln ++ 0x0A#8 :: rest → 0x0A#8 ∉ ln → (s.cell k).toNat + ln.length ≤ 4095 →
    ∃ t, exec .scanStr s = .next t ∧
      (s.data.wf → t.data.wf ∧ t.data.read ((s.cell k).toNat + ln.length) = 0#8 ∧
        ∀ (n : Nat) (h : n < ln.length), t.data.read ((s.cell k).toNat + n) = ln[n]) ∧
      (∀ b, b < (s.cell k).toNat ∨ (s.cell k).toNat + ln.length < b → t.data.read b = s.data.read b) ∧
      t = { s with data := t.data, sp := s.sp + 1#16, ip := s.ip + 1#16, input := rest }

/-- SCAN_STR's faults (44 R177, 60 R207): StackUnderflow with nothing changed; OutOfBoundsAddress with the pop done and
no line read; UnterminatedOrOversizedIO for a line that does not fit, with the pop done, the line taken and no byte
below the address changed. [D4, D6, D11, D12; log 1, log 8, log 13, log 15, log 17, log 22] -/
def Obligations.ScanStrFaults : Prop :=
  ∀ s : State, (s.sp.toNat = 256 → exec .scanStr s = .next (s.withFault .stackUnderflow)) ∧
    (∀ k : Fin 256, k.val = s.sp.toNat →
      (4095 < (s.cell k).toNat →
        exec .scanStr s = .next { s with sp := s.sp + 1#16, status := .faulted .outOfBoundsAddress }) ∧
      (∀ line rest, s.input = line ++ 0x0A#8 :: rest → 0x0A#8 ∉ line → (s.cell k).toNat ≤ 4095 →
        4095 < (s.cell k).toNat + line.length →
        ∃ t, exec .scanStr s = .next t ∧ (∀ b, b < (s.cell k).toNat → t.data.read b = s.data.read b) ∧
          t = { s with
            sp := s.sp + 1#16, status := .faulted .unterminatedOrOversizedIO, input := rest, data := t.data,
            draws := t.draws }))

/-- A blocked SCAN_STR has no step; once the host has returned the line, the instruction completes with that line, its
bytes being those that had arrived before and those of the answer (60 R220). That the missing step is answered by
`awaitingLine` is the model's choice. [D11, D12; log 1, log 2, log 17, log 22] -/
def Obligations.ScanStrWaits : Prop :=
  ∀ (s : State) (k : Fin 256), k.val = s.sp.toNat → (s.cell k).toNat ≤ 4095 → 0x0A#8 ∉ s.input →
    exec .scanStr s = .fault .awaitingLine ∧
    ∀ ln : List Byte, 0x0A#8 ∉ ln → (s.cell k).toNat + (s.input ++ ln).length ≤ 4095 →
      ∃ t, exec .scanStr (s.supplyLine ln) = .next t ∧
        (s.data.wf → t.data.wf ∧ t.data.read ((s.cell k).toNat + (s.input ++ ln).length) = 0#8 ∧
          ∀ (n : Nat) (h : n < (s.input ++ ln).length), t.data.read ((s.cell k).toNat + n) = (s.input ++ ln)[n]) ∧
        (∀ b, b < (s.cell k).toNat ∨ (s.cell k).toNat + (s.input ++ ln).length < b → t.data.read b = s.data.read b) ∧
        t = { s with data := t.data, sp := s.sp + 1#16, ip := s.ip + 1#16, input := [] }

/-- The output only grows, and only PRINT_INT and PRINT_STR add to it (44 R170, R178). [D23; log 3] -/
def Obligations.OutputOnlyGrows : Prop :=
  ∀ s t : State, step s = .next t → ∃ bs, t.output = s.output ++ bs ∧
    (bs ≠ [] → s.data.read s.ip.toNat ∈ [0xC0#8, 0xC2#8])

/-! ## Rules about the whole machine -/

/-- Who writes what (10_state.md R35, with R27 and R29): a state element changes only by an instruction the access
summary lists as its writer. [R35 is an inference; D20; log 24] -/
def Obligations.OnlyListedWritersWrite : Prop :=
  ∀ (i : Instr) (s t : State), exec i s = .next t →
    (t.x ≠ s.x → i.opcode ∈ registerWriters) ∧ (t.zf ≠ s.zf ∨ t.cf ≠ s.cf → i.opcode ∈ aluOpcodes) ∧
    (t.sp ≠ s.sp → i.opcode ∈ spWriters) ∧ (t.stack ≠ s.stack → i.opcode = 0xAF#8) ∧
    (t.data ≠ s.data → i.opcode ∈ dataWriters)

/-- A HALT byte stored by MOV BYTE[addr],Rs is what a later fetch at that address runs: the one case stated here of the
coherence of fetch with stores (20_memory.md R57, 70 R246). Other bytes, the other stores and SCAN_STR are outside this
statement. [inferences of R57 and R246; D1, D16; log 11, log 15] -/
def Obligations.FetchSeesStore : Prop :=
  ∀ (i : RegIx) (addr : Word) (s : State), s.data.wf → addr.toNat ≤ 4095 → (s.reg i).toNat % 256 = 0xED →
    ∃ t, exec (.movByteAddrRs i.byte addr) s = .next t ∧
      ∀ u : State, u.data = t.data → u.ip = addr → u.status = .running →
        step u = .next { u with ip := addr + 1#16, status := .halted }

/-- No instruction can observe a stack cell below `sp` (70 R243): two states that differ only there take steps of the
same outcome, to states that differ only there, the free values of log 7 and log 8 being the same in both. [an inference
of R243; D8; log 6, log 7, log 8, log 29] -/
def Obligations.DeadStackCellsUnobservable : Prop :=
  ∀ s t : State, s.agreeOnLive t →
    (∀ s', step s = .next s' → ∃ t', step t = .next t' ∧ s'.agreeOnLive t') ∧
    (∀ f, step s = .fault f → step t = .fault f)

/-- The host's views: FLAGS has `zf` in bit 0, `cf` in bit 1 and 0 in bits 7:2, and ignores a write to those
(10_state.md R28); the status view has the codes of 60 R221 and R202. [D13, D14, D15; log 18] -/
def Obligations.HostViews : Prop :=
  (∀ s : State, s.flagsView.toNat = s.zf.toNat + 2 * s.cf.toNat ∧
    ∀ v, (s.withFlagsView v).flagsView.toNat = v.toNat % 4) ∧
  (∀ s : State, (s.status = .running → s.statusView = (0, none)) ∧ (s.status = .halted → s.statusView = (1, none)) ∧
    (∀ r, s.status = .faulted r → s.statusView = (2, some r.code))) ∧
  [FaultReason.invalidOpcode, .invalidRegisterSelector, .outOfBoundsAddress, .stackOverflow, .stackUnderflow,
    .unterminatedOrOversizedIO].map FaultReason.code = [1, 2, 3, 4, 5, 6]
end

