-- ==== Sys2Proof/Laws/Decode.lean ====
section
/-! SUPPORT. The bit fields of the encodings taken apart and put together, and what each format's decoder answers. -/

namespace Sys2Proof

@[simp] theorem hiNibble_pairByte (d r : Nibble) : hiNibble (pairByte d r) = d := by
  have := r.isLt
  apply BitVec.eq_of_toNat_eq
  simp only [hiNibble, pairByte, BitVec.extractLsb'_toNat, BitVec.toNat_append, Nat.shiftRight_eq_div_pow]
  rw [← Nat.shiftLeft_add_eq_or_of_lt this, Nat.shiftLeft_eq]
  omega

@[simp] theorem loNibble_pairByte (d r : Nibble) : loNibble (pairByte d r) = r := by
  have := r.isLt
  apply BitVec.eq_of_toNat_eq
  simp only [loNibble, pairByte, BitVec.extractLsb'_toNat, BitVec.toNat_append, Nat.shiftRight_eq_div_pow]
  rw [← Nat.shiftLeft_add_eq_or_of_lt this, Nat.shiftLeft_eq]
  omega

@[simp] theorem pairByte_nibbles (b : Byte) : pairByte (hiNibble b) (loNibble b) = b := by
  have := b.isLt
  apply BitVec.eq_of_toNat_eq
  simp only [hiNibble, loNibble, pairByte, BitVec.extractLsb'_toNat, BitVec.toNat_append, Nat.shiftRight_eq_div_pow]
  rw [← Nat.shiftLeft_add_eq_or_of_lt (by omega), Nat.shiftLeft_eq]
  omega

theorem toNat_wordOf (hi lo : Byte) : (wordOf hi lo).toNat = 256 * hi.toNat + lo.toNat := by
  have := lo.isLt
  rw [wordOf, BitVec.toNat_append, ← Nat.shiftLeft_add_eq_or_of_lt this, Nat.shiftLeft_eq]
  omega

@[simp] theorem toNat_loByte (v : Word) : (loByte v).toNat = v.toNat % 256 := by simp [loByte]

@[simp] theorem toNat_hiByte (v : Word) : (hiByte v).toNat = v.toNat / 256 := by
  have := v.isLt
  simp only [hiByte, BitVec.extractLsb'_toNat, Nat.shiftRight_eq_div_pow]
  omega

@[simp] theorem loByte_wordOf (hi lo : Byte) : loByte (wordOf hi lo) = lo := by
  have := lo.isLt
  apply BitVec.eq_of_toNat_eq
  rw [toNat_loByte, toNat_wordOf]; omega

@[simp] theorem hiByte_wordOf (hi lo : Byte) : hiByte (wordOf hi lo) = hi := by
  have := lo.isLt
  apply BitVec.eq_of_toNat_eq
  rw [toNat_hiByte, toNat_wordOf]; omega

@[simp] theorem wordOf_bytes (v : Word) : wordOf (hiByte v) (loByte v) = v := by
  apply BitVec.eq_of_toNat_eq
  rw [toNat_wordOf, toNat_hiByte, toNat_loByte]; omega

/-! ### What each format's decoder answers -/

theorem decodeP_ok {mk : Nibble → Nibble → Instr} {bs : List Byte} {i : Instr} {rest : List Byte}
    (h : decodeP mk bs = .ok (i, rest)) : ∃ b1, bs = b1 :: rest ∧ i = mk (hiNibble b1) (loNibble b1) := by
  match bs, h with
  | b1 :: _, rfl => exact ⟨b1, rfl, rfl⟩

theorem decodeS_ok {mk : Byte → Instr} {bs : List Byte} {i : Instr} {rest : List Byte}
    (h : decodeS mk bs = .ok (i, rest)) : ∃ b1, bs = b1 :: rest ∧ i = mk b1 := by
  match bs, h with
  | b1 :: _, rfl => exact ⟨b1, rfl, rfl⟩

theorem decodeSI8_ok {mk : Byte → Byte → Instr} {bs : List Byte} {i : Instr} {rest : List Byte}
    (h : decodeSI8 mk bs = .ok (i, rest)) : ∃ b1 b2, bs = b1 :: b2 :: rest ∧ i = mk b1 b2 := by
  match bs, h with
  | b1 :: b2 :: _, rfl => exact ⟨b1, b2, rfl, rfl⟩

theorem decodeA_ok {mk : Word → Instr} {bs : List Byte} {i : Instr} {rest : List Byte}
    (h : decodeA mk bs = .ok (i, rest)) : ∃ b1 b2, bs = b1 :: b2 :: rest ∧ i = mk (wordOf b2 b1) := by
  match bs, h with
  | b1 :: b2 :: _, rfl => exact ⟨b1, b2, rfl, rfl⟩

theorem decodeSW_ok {mk : Byte → Word → Instr} {bs : List Byte} {i : Instr} {rest : List Byte}
    (h : decodeSW mk bs = .ok (i, rest)) : ∃ b1 b2 b3, bs = b1 :: b2 :: b3 :: rest ∧ i = mk b1 (wordOf b3 b2) := by
  match bs, h with
  | b1 :: b2 :: b3 :: _, rfl => exact ⟨b1, b2, b3, rfl, rfl⟩

end Sys2Proof
end

