-- ==== Sys2Proof/Laws/Flags.lean ====
section
/-! SUPPORT. The ALU functions read as arithmetic on numbers (42_arithmetic.md R130 to R135). -/

namespace Sys2Proof.Machine

@[simp] theorem addW_res (p q : Word) : (addW p q).res = p + q := rfl
@[simp] theorem subW_res (p q : Word) : (subW p q).res = p - q := rfl
@[simp] theorem addB_res (p q : Byte) : (addB p q).res = p + q := rfl
@[simp] theorem subB_res (p q : Byte) : (subB p q).res = p - q := rfl
@[simp] theorem xorW_res (p q : Word) : (xorW p q).res = p ^^^ q := rfl
@[simp] theorem xorB_res (p q : Byte) : (xorB p q).res = p ^^^ q := rfl
@[simp] theorem xorW_cf (p q : Word) : (xorW p q).cf = false := rfl
@[simp] theorem xorB_cf (p q : Byte) : (xorB p q).cf = false := rfl

/-- A value is zero iff its number is. -/
theorem beq_zero_eq_decide {w : Nat} (v : BitVec w) : (v == 0#w) = decide (v.toNat = 0) := by
  rw [Bool.eq_iff_iff]
  simp [← BitVec.toNat_inj]

theorem addW_zf (p q : Word) : (addW p q).zf = decide ((p.toNat + q.toNat) % 65536 = 0) := by
  simp [addW, beq_zero_eq_decide]
theorem addW_cf (p q : Word) : (addW p q).cf = decide ((p.toNat + q.toNat) % 65536 < p.toNat) := by
  simp [addW, BitVec.ult]
theorem subW_zf (p q : Word) : (subW p q).zf = decide ((65536 + p.toNat - q.toNat) % 65536 = 0) := by
  have := q.isLt
  simp only [subW, beq_zero_eq_decide, BitVec.toNat_sub]
  congr 2; omega
theorem subW_cf (p q : Word) : (subW p q).cf = decide (p.toNat < (65536 + p.toNat - q.toNat) % 65536) := by
  have := q.isLt
  simp only [subW, BitVec.ult, BitVec.toNat_sub]
  congr 2; omega
theorem addB_zf (p q : Byte) : (addB p q).zf = decide ((p.toNat + q.toNat) % 256 = 0) := by
  simp [addB, beq_zero_eq_decide]
theorem addB_cf (p q : Byte) : (addB p q).cf = decide ((p.toNat + q.toNat) % 256 < p.toNat) := by
  simp [addB, BitVec.ult]
theorem subB_zf (p q : Byte) : (subB p q).zf = decide ((256 + p.toNat - q.toNat) % 256 = 0) := by
  have := q.isLt
  simp only [subB, beq_zero_eq_decide, BitVec.toNat_sub]
  congr 2; omega
theorem subB_cf (p q : Byte) : (subB p q).cf = decide (p.toNat < (256 + p.toNat - q.toNat) % 256) := by
  have := q.isLt
  simp only [subB, BitVec.ult, BitVec.toNat_sub]
  congr 2; omega
theorem xorW_zf (p q : Word) : (xorW p q).zf = decide (p ^^^ q = 0#16) := rfl
theorem xorB_zf (p q : Byte) : (xorB p q).zf = decide (p ^^^ q = 0#8) := rfl
theorem cmpZfW_eq (p q : Word) : cmpZfW p q = decide (p.toNat = q.toNat) := by
  rw [Bool.eq_iff_iff]
  simp [cmpZfW, ← BitVec.toNat_inj]
theorem cmpCfW_eq (p q : Word) : cmpCfW p q = decide (p.toNat < q.toNat) := rfl
theorem cmpZfB_eq (p q : Byte) : cmpZfB p q = decide (p.toNat = q.toNat) := by
  rw [Bool.eq_iff_iff]
  simp [cmpZfB, ← BitVec.toNat_inj]
theorem cmpCfB_eq (p q : Byte) : cmpCfB p q = decide (p.toNat < q.toNat) := rfl

/-! ### A subtract and a compare never set both flags (42_arithmetic.md R136 (d)) -/

theorem subW_cf_of_zf {p q : Word} (h : (subW p q).zf = true) : (subW p q).cf = false := by
  have := p.isLt
  rw [subW_zf, decide_eq_true_eq] at h
  rw [subW_cf, decide_eq_false_iff_not]; omega

theorem subB_cf_of_zf {p q : Byte} (h : (subB p q).zf = true) : (subB p q).cf = false := by
  have := p.isLt
  rw [subB_zf, decide_eq_true_eq] at h
  rw [subB_cf, decide_eq_false_iff_not]; omega

theorem cmpCfW_of_zf {p q : Word} (h : cmpZfW p q = true) : cmpCfW p q = false := by
  rw [cmpZfW_eq, decide_eq_true_eq] at h
  rw [cmpCfW_eq, decide_eq_false_iff_not]; omega

theorem cmpCfB_of_zf {p q : Byte} (h : cmpZfB p q = true) : cmpCfB p q = false := by
  rw [cmpZfB_eq, decide_eq_true_eq] at h
  rw [cmpCfB_eq, decide_eq_false_iff_not]; omega

end Sys2Proof.Machine
end

