-- ==== Sys2Proof/Laws/Memory.lean ====
section
/-! SUPPORT. The laws of `data`: a read after a write, and the canonical form under every operation. -/

namespace Sys2Proof.Machine

@[simp] theorem Memory.read_nil (a : Nat) : Memory.read [] a = 0x00#8 := rfl

theorem Memory.read_cons (b : Nat) (v : Byte) (m : Memory) (a : Nat) :
    Memory.read ((b, v) :: m) a = if a = b then v else m.read a := rfl

/-- An address below every listed one reads as unlisted. -/
theorem Memory.read_of_lt (m : Memory) (a : Nat) (h : ∀ c ∈ m, a < c.1) : m.read a = Memory.unlisted := by
  induction m with
  | nil => rfl
  | cons c m ih =>
    have hc : a < c.1 := h c (by simp)
    rw [Memory.read, if_neg (by omega)]
    exact ih fun e he => h e (by simp [he])

/-- The entry for `v` at `a` before `m` reads as `v` at `a`, if no address of `m` is at or below `a`. -/
theorem Memory.read_entry_self (a : Nat) (v : Byte) (m : Memory) (h : ∀ c ∈ m, a < c.1) :
    (Memory.entry a v m).read a = v := by
  unfold Memory.entry
  split
  · rename_i hv
    rw [Memory.read_of_lt m a h, hv]
  · simp [Memory.read]

theorem Memory.read_entry_of_ne {a a' : Nat} (v : Byte) (m : Memory) (h : a' ≠ a) :
    (Memory.entry a v m).read a' = m.read a' := by
  unfold Memory.entry
  split
  · rfl
  · simp [Memory.read, h]

/-- A write leaves every other byte alone, whatever the memory. -/
theorem Memory.read_write_of_ne (m : Memory) {a a' : Nat} (v : Byte) (h : a' ≠ a) :
    (m.write a v).read a' = m.read a' := by
  induction m with
  | nil => exact Memory.read_entry_of_ne v [] h
  | cons c m ih =>
    rw [Memory.write]
    split
    · exact Memory.read_entry_of_ne v _ h
    · split
      · rename_i h2
        rw [Memory.read_entry_of_ne v _ h, Memory.read, if_neg (by omega)]
      · rw [Memory.read, Memory.read, ih]

/-- A byte written to a canonical memory reads back. -/
theorem Memory.read_write_self {m : Memory} (hm : m.wf) (a : Nat) (v : Byte) : (m.write a v).read a = v := by
  obtain ⟨hs, -⟩ := hm
  induction m with
  | nil => exact Memory.read_entry_self a v [] (by simp)
  | cons c m ih =>
    rw [List.pairwise_cons] at hs
    rw [Memory.write]
    split
    · rename_i h1
      refine Memory.read_entry_self a v _ fun e he => ?_
      rcases List.mem_cons.mp he with rfl | he
      · exact h1
      · exact Nat.lt_trans h1 (hs.1 e he)
    · split
      · rename_i h2
        exact Memory.read_entry_self a v _ fun e he => h2 ▸ hs.1 e he
      · rename_i h2
        rw [Memory.read, if_neg h2]
        exact ih hs.2

/-- What one byte reads as after a write. -/
theorem Memory.read_write {m : Memory} (hm : m.wf) (a a' : Nat) (v : Byte) :
    (m.write a v).read a' = if a' = a then v else m.read a' := by
  split
  · rename_i h
    rw [h, Memory.read_write_self hm]
  · exact Memory.read_write_of_ne m v ‹_›

/-- The addresses a write lists are those listed before and the one written. -/
theorem Memory.mem_write {m : Memory} {a : Nat} {v : Byte} {c : Host.Cell} (h : c ∈ m.write a v) :
    c ∈ m ∨ (c = (a, v) ∧ v ≠ Memory.unlisted) := by
  have entry : ∀ l : Memory, c ∈ Memory.entry a v l → c ∈ l ∨ (c = (a, v) ∧ v ≠ Memory.unlisted) := by
    intro l hl
    unfold Memory.entry at hl
    split at hl
    · exact .inl hl
    · rcases List.mem_cons.mp hl with e | e
      · exact .inr ⟨e, ‹_›⟩
      · exact .inl e
  induction m with
  | nil => exact entry [] h
  | cons d m ih =>
    rw [Memory.write] at h
    split at h
    · exact entry _ h
    · split at h
      · exact (entry _ h).imp_left (List.mem_cons_of_mem _)
      · rcases List.mem_cons.mp h with e | e
        · exact .inl (e ▸ List.mem_cons_self ..)
        · exact (ih e).imp_left (List.mem_cons_of_mem _)

theorem Memory.wf_nil : Memory.wf [] := by simp [Memory.wf]

/-- Every write to an address of `data` keeps the canonical form. -/
theorem Memory.wf_write {m : Memory} (hm : m.wf) {a : Nat} (ha : a < 4096) (v : Byte) : (m.write a v).wf := by
  refine ⟨?_, fun c hc => ?_⟩
  · obtain ⟨hs, -⟩ := hm
    have entry : ∀ l : Memory, l.Pairwise (fun c e => c.1 < e.1) → (∀ c ∈ l, a < c.1) →
        (Memory.entry a v l).Pairwise (fun c e => c.1 < e.1) := by
      intro l hl hlt
      unfold Memory.entry
      split
      · exact hl
      · exact List.pairwise_cons.mpr ⟨fun c hc => hlt c hc, hl⟩
    induction m with
    | nil => exact entry [] (by simp) (by simp)
    | cons d m ih =>
      rw [List.pairwise_cons] at hs
      rw [Memory.write]
      split
      · rename_i h1
        refine entry _ (List.pairwise_cons.mpr hs) fun e he => ?_
        rcases List.mem_cons.mp he with rfl | he
        · exact h1
        · exact Nat.lt_trans h1 (hs.1 e he)
      · split
        · rename_i h2
          exact entry _ hs.2 fun e he => h2 ▸ hs.1 e he
        · rename_i h1 h2
          refine List.pairwise_cons.mpr ⟨fun e he => ?_, ih hs.2⟩
          rcases Memory.mem_write he with he | ⟨rfl, -⟩
          · exact hs.1 e he
          · exact Nat.lt_of_le_of_ne (Nat.le_of_not_lt h1) (Ne.symm h2)
  · rcases Memory.mem_write hc with hc | ⟨rfl, hv⟩
    · exact hm.2 c hc
    · exact ⟨ha, hv⟩

/-- Writing bytes leaves every byte outside them alone, whatever the memory. -/
theorem Memory.read_writeBytes_of_outside (m : Memory) (bs : List Byte) {a a' : Nat}
    (h : a' < a ∨ a + bs.length ≤ a') : (m.writeBytes a bs).read a' = m.read a' := by
  induction bs generalizing m a with
  | nil => rfl
  | cons b bs ih =>
    rw [List.length_cons] at h
    rw [Memory.writeBytes, ih _ (by omega), Memory.read_write_of_ne _ _ (by omega)]

/-- Writing bytes that lie in `data` keeps the canonical form. -/
theorem Memory.wf_writeBytes {m : Memory} (hm : m.wf) {a : Nat} (bs : List Byte) (h : a + bs.length ≤ 4096) :
    (m.writeBytes a bs).wf := by
  induction bs generalizing m a with
  | nil => exact hm
  | cons b bs ih =>
    rw [List.length_cons] at h
    exact ih (Memory.wf_write hm (by omega) b) (by omega)

/-- Bytes written to a canonical memory read back. -/
theorem Memory.read_writeBytes_inside {m : Memory} (hm : m.wf) {a : Nat} (bs : List Byte) (h : a + bs.length ≤ 4096)
    (n : Nat) (hn : n < bs.length) : (m.writeBytes a bs).read (a + n) = bs[n] := by
  induction bs generalizing m a n with
  | nil => simp at hn
  | cons b bs ih =>
    rw [List.length_cons] at h hn
    have hw : (m.write a b).wf := Memory.wf_write hm (by omega) b
    rw [Memory.writeBytes]
    cases n with
    | zero =>
      rw [Memory.read_writeBytes_of_outside _ _ (by omega), Nat.add_zero, Memory.read_write_self hm]
      rfl
    | succ n =>
      have := ih hw (a := a + 1) (by omega) n (by omega)
      rw [show a + (n + 1) = a + 1 + n by omega, this]
      rfl

/-- Equal canonical memories are equal data: two that read alike everywhere are the same list. -/
theorem Memory.ext_of_read {m m' : Memory} (hm : m.wf) (hm' : m'.wf) (h : ∀ a, m.read a = m'.read a) : m = m' := by
  induction m generalizing m' with
  | nil =>
    cases m' with
    | nil => rfl
    | cons c m' =>
      have := h c.1
      simp only [Memory.read, if_true] at this
      exact absurd this.symm (hm'.2 c (by simp)).2
  | cons c m ih =>
    cases m' with
    | nil =>
      have := h c.1
      simp only [Memory.read, if_true] at this
      exact absurd this (hm.2 c (by simp)).2
    | cons d m' =>
      obtain ⟨hs, hb⟩ := hm
      obtain ⟨hs', hb'⟩ := hm'
      rw [List.pairwise_cons] at hs hs'
      have hcd : c.1 = d.1 := by
        rcases Nat.lt_trichotomy c.1 d.1 with hlt | heq | hlt
        · have := h c.1
          rw [Memory.read, if_pos rfl, Memory.read, if_neg (by omega),
            Memory.read_of_lt m' c.1 fun e he => Nat.lt_trans hlt (hs'.1 e he)] at this
          exact absurd this (hb c (by simp)).2
        · exact heq
        · have := h d.1
          rw [Memory.read, if_neg (by omega), Memory.read, if_pos rfl,
            Memory.read_of_lt m d.1 fun e he => Nat.lt_trans hlt (hs.1 e he)] at this
          exact absurd this.symm (hb' d (by simp)).2
      have hv : c.2 = d.2 := by
        have := h c.1
        rwa [Memory.read, if_pos rfl, Memory.read, if_pos hcd] at this
      have hrest : m = m' := by
        refine ih ⟨hs.2, fun e he => hb e (by simp [he])⟩ ⟨hs'.2, fun e he => hb' e (by simp [he])⟩ fun a => ?_
        by_cases ha : a = c.1
        · rw [Memory.read_of_lt m a fun e he => ha ▸ hs.1 e he,
            Memory.read_of_lt m' a fun e he => ha ▸ hcd ▸ hs'.1 e he]
        · have := h a
          rwa [Memory.read, if_neg ha, Memory.read, if_neg (hcd ▸ ha)] at this
      rw [hrest, Prod.ext hcd hv]

/-! ### Byte sequences -/

@[simp] theorem Memory.length_bytes (m : Memory) (a n : Nat) : (m.bytes a n).length = n := by
  induction n generalizing a with
  | zero => rfl
  | succ n ih => simp [Memory.bytes, ih]

/-- The bytes from `a` on are the reads at `a`, `a + 1`, and so on. -/
theorem Memory.bytes_eq_map (m : Memory) (a n : Nat) : m.bytes a n = (List.range n).map (fun k => m.read (a + k)) := by
  induction n generalizing a with
  | zero => rfl
  | succ n ih =>
    rw [Memory.bytes, ih, List.range_succ_eq_map, List.map_cons, List.map_map]
    congr 1
    exact List.map_congr_left fun k _ => by simp only [Function.comp_apply]; congr 1; omega

/-! ### The terminator -/

/-- `terminator` finds `k` iff `k` is the least address from `a` to 4095 whose byte is 0. -/
theorem Memory.terminator_eq_some {m : Memory} {a k : Nat} :
    m.terminator a = some k ↔ m.read k = 0x00#8 ∧ a ≤ k ∧ k < 4096 ∧ ∀ j, a ≤ j → j < k → m.read j ≠ 0x00#8 := by
  unfold Memory.terminator
  rw [List.find?_range'_eq_some]
  simp only [List.mem_range'_1, beq_iff_eq, Bool.not_eq_true', beq_eq_false_iff_ne, ne_eq]
  constructor
  · rintro ⟨h1, ⟨h2, h3⟩, h4⟩
    exact ⟨h1, h2, by omega, h4⟩
  · rintro ⟨h1, h2, h3, h4⟩
    exact ⟨h1, ⟨h2, by omega⟩, h4⟩

/-- `terminator` finds nothing iff no byte from `a` to 4095 is 0. -/
theorem Memory.terminator_eq_none {m : Memory} {a : Nat} :
    m.terminator a = none ↔ ∀ j, a ≤ j → j < 4096 → m.read j ≠ 0x00#8 := by
  unfold Memory.terminator
  rw [List.find?_eq_none]
  simp only [List.mem_range'_1, beq_iff_eq]
  constructor
  · intro h j h1 h2
    exact h j ⟨h1, by omega⟩
  · rintro h j ⟨h1, h2⟩
    exact h j h1 (by omega)

end Sys2Proof.Machine
end

