-- ==== Sys2Proof/Laws/Operands.lean ====
section
/-! SUPPORT. The register selectors, the low byte and the zero extension. -/

namespace Sys2Proof.Machine

/-! ### Selectors -/

@[simp] theorem RegIx_toNat_nibble (i : RegIx) : i.nibble.toNat = i.val := by
  have : i.val < 4 := i.isLt
  simp [RegIx.nibble]; omega

@[simp] theorem RegIx_toNat_byte (i : RegIx) : i.byte.toNat = i.val := by
  have : i.val < 4 := i.isLt
  simp [RegIx.byte]; omega

@[simp] theorem selOne_byte (i : RegIx) : selOne i.byte = .ok i := by
  have h : i.byte.toNat < 4 := by simp
  simp [selOne]

@[simp] theorem selPair_nibble (i j : RegIx) : selPair i.nibble j.nibble = .ok (i, j) := by
  simp [selPair]

theorem selOne_invalid {b : Byte} (h : oneOk b = false) : selOne b = .raised .invalidRegisterSelector := by
  simp only [oneOk, decide_eq_false_iff_not] at h
  rw [selOne, dif_neg (by omega)]

theorem selPair_invalid {d r : Nibble} (h : pairOk d r = false) :
    selPair d r = .raised .invalidRegisterSelector := by
  simp only [pairOk, Bool.and_eq_false_iff, decide_eq_false_iff_not] at h
  rw [selPair, dif_neg (by omega)]

/-- A valid single selector is the byte of a register. -/
theorem oneOk_iff {b : Byte} : oneOk b = true ↔ ∃ i : RegIx, b = i.byte := by
  constructor
  · intro h
    have hb : b.toNat ≤ 3 := by simpa [oneOk] using h
    exact ⟨⟨b.toNat, by omega⟩, BitVec.eq_of_toNat_eq (by simp)⟩
  · rintro ⟨i, rfl⟩
    have := i.isLt
    simp [oneOk]; omega

/-- A valid pair selector is the nibbles of two registers. -/
theorem pairOk_iff {d r : Nibble} : pairOk d r = true ↔ ∃ i j : RegIx, d = i.nibble ∧ r = j.nibble := by
  constructor
  · intro h
    have hb : d.toNat ≤ 3 ∧ r.toNat ≤ 3 := by simpa [pairOk] using h
    exact ⟨⟨d.toNat, by omega⟩, ⟨r.toNat, by omega⟩, BitVec.eq_of_toNat_eq (by simp),
      BitVec.eq_of_toNat_eq (by simp)⟩
  · rintro ⟨i, j, rfl, rfl⟩
    have := i.isLt
    have := j.isLt
    simp [pairOk]; omega

/-- Everything `selOne` can answer. -/
theorem selOne_cases (b : Byte) :
    (∃ i : RegIx, b = i.byte ∧ selOne b = .ok i) ∨
      (oneOk b = false ∧ selOne b = .raised .invalidRegisterSelector) := by
  cases h : oneOk b with
  | true => obtain ⟨i, rfl⟩ := oneOk_iff.mp h; exact .inl ⟨i, rfl, by simp⟩
  | false => exact .inr ⟨rfl, selOne_invalid h⟩

/-- Everything `selPair` can answer. -/
theorem selPair_cases (d r : Nibble) :
    (∃ i j : RegIx, d = i.nibble ∧ r = j.nibble ∧ selPair d r = .ok (i, j)) ∨
      (pairOk d r = false ∧ selPair d r = .raised .invalidRegisterSelector) := by
  cases h : pairOk d r with
  | true => obtain ⟨i, j, rfl, rfl⟩ := pairOk_iff.mp h; exact .inl ⟨i, j, rfl, rfl, by simp⟩
  | false => exact .inr ⟨rfl, selPair_invalid h⟩

/-! ### Low bytes -/

@[simp] theorem toNat_lo8 (v : Word) : (lo8 v).toNat = v.toNat % 256 := by simp [lo8]

@[simp] theorem toNat_zext16 (b : Byte) : (zext16 b).toNat = b.toNat := by
  simp [zext16]; omega

/-- The low byte of a word with its low byte replaced. -/
@[simp] theorem lo8_withLo8 (v : Word) (b : Byte) : lo8 (withLo8 v b) = b := by
  apply BitVec.eq_of_getLsbD_eq
  intro i hi
  simp only [lo8, withLo8, zext16, BitVec.getLsbD_extractLsb', BitVec.getLsbD_or, BitVec.getLsbD_and,
    BitVec.getLsbD_setWidth, Nat.zero_add, hi, decide_true, Bool.true_and]
  have : (0xFF00#16).getLsbD i = false := by
    have : ∀ k : Fin 8, (0xFF00#16).getLsbD k.val = false := by decide
    exact this ⟨i, hi⟩
  simp [this]; omega

/-- The value of a word with its low byte replaced: its high byte and the new low byte. -/
theorem toNat_withLo8 (v : Word) (b : Byte) : (withLo8 v b).toNat = v.toNat / 256 * 256 + b.toNat := by
  have h1 : withLo8 v b = v.extractLsb' 8 8 ++ b := by
    apply BitVec.eq_of_getLsbD_eq
    intro i hi
    simp only [withLo8, zext16, BitVec.getLsbD_or, BitVec.getLsbD_and, BitVec.getLsbD_setWidth, BitVec.getLsbD_append,
      BitVec.getLsbD_extractLsb']
    have hm : (0xFF00#16).getLsbD i = decide (8 ≤ i) := by
      have : ∀ k : Fin 16, (0xFF00#16).getLsbD k.val = decide (8 ≤ k.val) := by decide
      exact this ⟨i, hi⟩
    rw [hm]
    by_cases h : i < 8
    · have : ¬ 8 ≤ i := by omega
      simp [h, this, hi]
    · have h8 : 8 ≤ i := by omega
      have : i - 8 < 8 := by omega
      simp [h, h8, this, show 8 + (i - 8) = i by omega]
  have hv := v.isLt
  have hb := b.isLt
  rw [h1, BitVec.toNat_append, BitVec.extractLsb'_toNat, Nat.shiftLeft_eq, ← Nat.mul_comm,
    Nat.mul_comm, ← Nat.shiftLeft_eq, ← Nat.shiftLeft_add_eq_or_of_lt hb, Nat.shiftLeft_eq, Nat.shiftRight_eq_div_pow]
  omega

end Sys2Proof.Machine
end

