-- ==== Sys2Proof/Laws/State.lean ====
section
/-! SUPPORT. What each named update of the state leaves and writes, field by field. -/

namespace Sys2Proof.Machine

section
variable (s : State) (i j : RegIx) (v w : Word) (b : Byte) (z c : Bool) (bs : List Byte)

/-! ### Reading a register after an update -/

@[simp] theorem reg_setReg_self : (s.setReg i v).reg i = v := by
  simp [State.reg, State.setReg]

theorem reg_setReg_of_ne (h : j ≠ i) : (s.setReg i v).reg j = s.reg j := by
  have h' : i.val ≠ j.val := fun e => h (Fin.ext e.symm)
  simp [State.reg, State.setReg, h']

@[simp] theorem setReg_data : (s.setReg i v).data = s.data := rfl
@[simp] theorem setReg_stack : (s.setReg i v).stack = s.stack := rfl
@[simp] theorem setReg_zf : (s.setReg i v).zf = s.zf := rfl
@[simp] theorem setReg_cf : (s.setReg i v).cf = s.cf := rfl
@[simp] theorem setReg_ip : (s.setReg i v).ip = s.ip := rfl
@[simp] theorem setReg_sp : (s.setReg i v).sp = s.sp := rfl
@[simp] theorem setReg_status : (s.setReg i v).status = s.status := rfl
@[simp] theorem setReg_output : (s.setReg i v).output = s.output := rfl
@[simp] theorem setReg_input : (s.setReg i v).input = s.input := rfl
@[simp] theorem setReg_draws : (s.setReg i v).draws = s.draws := rfl

@[simp] theorem reg_setLo8_self : (s.setLo8 i b).reg i = withLo8 (s.reg i) b := reg_setReg_self ..
theorem reg_setLo8_of_ne (h : j ≠ i) : (s.setLo8 i b).reg j = s.reg j := reg_setReg_of_ne _ _ _ _ h
@[simp] theorem setLo8_data : (s.setLo8 i b).data = s.data := rfl
@[simp] theorem setLo8_stack : (s.setLo8 i b).stack = s.stack := rfl
@[simp] theorem setLo8_zf : (s.setLo8 i b).zf = s.zf := rfl
@[simp] theorem setLo8_cf : (s.setLo8 i b).cf = s.cf := rfl
@[simp] theorem setLo8_ip : (s.setLo8 i b).ip = s.ip := rfl
@[simp] theorem setLo8_sp : (s.setLo8 i b).sp = s.sp := rfl
@[simp] theorem setLo8_status : (s.setLo8 i b).status = s.status := rfl
@[simp] theorem setLo8_output : (s.setLo8 i b).output = s.output := rfl
@[simp] theorem setLo8_input : (s.setLo8 i b).input = s.input := rfl
@[simp] theorem setLo8_draws : (s.setLo8 i b).draws = s.draws := rfl

/-! ### Flags -/

@[simp] theorem setFlags_zf : (s.setFlags z c).zf = z := rfl
@[simp] theorem setFlags_cf : (s.setFlags z c).cf = c := rfl
@[simp] theorem setFlags_reg : (s.setFlags z c).reg i = s.reg i := rfl
@[simp] theorem setFlags_x : (s.setFlags z c).x = s.x := rfl
@[simp] theorem setFlags_data : (s.setFlags z c).data = s.data := rfl
@[simp] theorem setFlags_stack : (s.setFlags z c).stack = s.stack := rfl
@[simp] theorem setFlags_ip : (s.setFlags z c).ip = s.ip := rfl
@[simp] theorem setFlags_sp : (s.setFlags z c).sp = s.sp := rfl
@[simp] theorem setFlags_status : (s.setFlags z c).status = s.status := rfl
@[simp] theorem setFlags_output : (s.setFlags z c).output = s.output := rfl
@[simp] theorem setFlags_input : (s.setFlags z c).input = s.input := rfl
@[simp] theorem setFlags_draws : (s.setFlags z c).draws = s.draws := rfl

/-! ### ALU results -/

@[simp] theorem putW_reg_self (r : AluResult 16) : (s.putW i r).reg i = r.res := by simp [State.putW]
theorem putW_reg_of_ne (r : AluResult 16) (h : j ≠ i) : (s.putW i r).reg j = s.reg j := by
  simp [State.putW, reg_setReg_of_ne _ _ _ _ h]
@[simp] theorem putW_zf (r : AluResult 16) : (s.putW i r).zf = r.zf := rfl
@[simp] theorem putW_cf (r : AluResult 16) : (s.putW i r).cf = r.cf := rfl
@[simp] theorem putW_data (r : AluResult 16) : (s.putW i r).data = s.data := rfl
@[simp] theorem putW_stack (r : AluResult 16) : (s.putW i r).stack = s.stack := rfl
@[simp] theorem putW_ip (r : AluResult 16) : (s.putW i r).ip = s.ip := rfl
@[simp] theorem putW_sp (r : AluResult 16) : (s.putW i r).sp = s.sp := rfl
@[simp] theorem putW_status (r : AluResult 16) : (s.putW i r).status = s.status := rfl
@[simp] theorem putW_output (r : AluResult 16) : (s.putW i r).output = s.output := rfl
@[simp] theorem putW_input (r : AluResult 16) : (s.putW i r).input = s.input := rfl
@[simp] theorem putW_draws (r : AluResult 16) : (s.putW i r).draws = s.draws := rfl

@[simp] theorem putB_reg_self (r : AluResult 8) : (s.putB i r).reg i = withLo8 (s.reg i) r.res := by
  simp [State.putB]
theorem putB_reg_of_ne (r : AluResult 8) (h : j ≠ i) : (s.putB i r).reg j = s.reg j := by
  simp [State.putB, reg_setLo8_of_ne _ _ _ _ h]
@[simp] theorem putB_zf (r : AluResult 8) : (s.putB i r).zf = r.zf := rfl
@[simp] theorem putB_cf (r : AluResult 8) : (s.putB i r).cf = r.cf := rfl
@[simp] theorem putB_data (r : AluResult 8) : (s.putB i r).data = s.data := rfl
@[simp] theorem putB_stack (r : AluResult 8) : (s.putB i r).stack = s.stack := rfl
@[simp] theorem putB_ip (r : AluResult 8) : (s.putB i r).ip = s.ip := rfl
@[simp] theorem putB_sp (r : AluResult 8) : (s.putB i r).sp = s.sp := rfl
@[simp] theorem putB_status (r : AluResult 8) : (s.putB i r).status = s.status := rfl
@[simp] theorem putB_output (r : AluResult 8) : (s.putB i r).output = s.output := rfl
@[simp] theorem putB_input (r : AluResult 8) : (s.putB i r).input = s.input := rfl
@[simp] theorem putB_draws (r : AluResult 8) : (s.putB i r).draws = s.draws := rfl

/-! ### The pop and the sinks -/

@[simp] theorem popped_sp : s.popped.sp = s.sp + 1#16 := rfl
@[simp] theorem popped_reg : s.popped.reg i = s.reg i := rfl
@[simp] theorem popped_x : s.popped.x = s.x := rfl
@[simp] theorem popped_data : s.popped.data = s.data := rfl
@[simp] theorem popped_stack : s.popped.stack = s.stack := rfl
@[simp] theorem popped_zf : s.popped.zf = s.zf := rfl
@[simp] theorem popped_cf : s.popped.cf = s.cf := rfl
@[simp] theorem popped_ip : s.popped.ip = s.ip := rfl
@[simp] theorem popped_status : s.popped.status = s.status := rfl
@[simp] theorem popped_output : s.popped.output = s.output := rfl
@[simp] theorem popped_input : s.popped.input = s.input := rfl
@[simp] theorem popped_draws : s.popped.draws = s.draws := rfl

@[simp] theorem emit_output : (s.emit bs).output = s.output ++ bs := rfl
@[simp] theorem emit_reg : (s.emit bs).reg i = s.reg i := rfl
@[simp] theorem emit_x : (s.emit bs).x = s.x := rfl
@[simp] theorem emit_data : (s.emit bs).data = s.data := rfl
@[simp] theorem emit_stack : (s.emit bs).stack = s.stack := rfl
@[simp] theorem emit_zf : (s.emit bs).zf = s.zf := rfl
@[simp] theorem emit_cf : (s.emit bs).cf = s.cf := rfl
@[simp] theorem emit_ip : (s.emit bs).ip = s.ip := rfl
@[simp] theorem emit_sp : (s.emit bs).sp = s.sp := rfl
@[simp] theorem emit_status : (s.emit bs).status = s.status := rfl
@[simp] theorem emit_input : (s.emit bs).input = s.input := rfl
@[simp] theorem emit_draws : (s.emit bs).draws = s.draws := rfl

@[simp] theorem supplyLine_input : (s.supplyLine bs).input = s.input ++ bs ++ [newline] := rfl
@[simp] theorem supplyLine_reg : (s.supplyLine bs).reg i = s.reg i := rfl
@[simp] theorem supplyLine_x : (s.supplyLine bs).x = s.x := rfl
@[simp] theorem supplyLine_data : (s.supplyLine bs).data = s.data := rfl
@[simp] theorem supplyLine_stack : (s.supplyLine bs).stack = s.stack := rfl
@[simp] theorem supplyLine_zf : (s.supplyLine bs).zf = s.zf := rfl
@[simp] theorem supplyLine_cf : (s.supplyLine bs).cf = s.cf := rfl
@[simp] theorem supplyLine_ip : (s.supplyLine bs).ip = s.ip := rfl
@[simp] theorem supplyLine_sp : (s.supplyLine bs).sp = s.sp := rfl
@[simp] theorem supplyLine_status : (s.supplyLine bs).status = s.status := rfl
@[simp] theorem supplyLine_output : (s.supplyLine bs).output = s.output := rfl
@[simp] theorem supplyLine_draws : (s.supplyLine bs).draws = s.draws := rfl

end

end Sys2Proof.Machine
end

