-- ==== Sys2Proof/Laws/Ops.lean ====
section
/-! SUPPORT. What each shared operation can do, said once, and the equations that run it. -/

namespace Sys2Proof.Machine

/-! ### Going on after a check -/

@[simp] theorem orRaise_ok {α : Type} (a : α) (s : State) (k : α → StepResult) : orRaise (.ok a) s k = k a := rfl
@[simp] theorem orRaise_raised {α : Type} (r : FaultReason) (s : State) (k : α → StepResult) :
    orRaise (.raised r) s k = .next { s with status := .faulted r } := rfl
@[simp] theorem orRaise_stuck {α : Type} (f : Fault) (s : State) (k : α → StepResult) :
    orRaise (.stuck f) s k = .fault f := rfl

/-- If a check and what follows it answer a next state, the check passed or its fault was taken. -/
theorem orRaise_next {α : Type} {c : Checked α} {s t : State} {k : α → StepResult} (h : orRaise c s k = .next t) :
    (∃ a, c = .ok a ∧ k a = .next t) ∨ (∃ r, c = .raised r ∧ t = { s with status := .faulted r }) := by
  cases c with
  | ok a => exact .inl ⟨a, rfl, h⟩
  | raised r => exact .inr ⟨r, rfl, (Host.Outcome.next.inj h).symm⟩
  | stuck f => cases h

theorem complete_next {n : Nat} {s t : State} : complete n s = .next t ↔ t = { s with ip := s.ip + BitVec.ofNat 16 n } :=
  ⟨fun h => (Host.Outcome.next.inj h).symm, fun h => by rw [h]; rfl⟩

theorem raise_next {r : FaultReason} {s t : State} : raise r s = .next t ↔ t = { s with status := .faulted r } :=
  ⟨fun h => (Host.Outcome.next.inj h).symm, fun h => by rw [h]; rfl⟩

theorem haltAt_next {s t : State} : haltAt s = .next t ↔ t = { s with ip := s.ip + 1#16, status := .halted } :=
  ⟨fun h => (Host.Outcome.next.inj h).symm, fun h => by rw [h]; rfl⟩

theorem awaitLine_ne_next (t : State) : awaitLine ≠ .next t := nofun

/-! ### Jumps -/

theorem jump_inRange {target : Word} (h : target.toNat ≤ 4095) (c : Bool) (s : State) :
    jump target c s = .next { s with ip := if c then target else s.ip + 3#16 } := by
  rw [jump, if_neg (by omega)]

theorem jump_outOfRange {target : Word} (h : 4095 < target.toNat) (c : Bool) (s : State) :
    jump target c s = .next { s with status := .faulted .outOfBoundsAddress } := by
  rw [jump, if_pos h, raise]

/-- Everything a jump can do. -/
theorem jump_next {target : Word} {c : Bool} {s t : State} (h : jump target c s = .next t) :
    (4095 < target.toNat ∧ t = { s with status := .faulted .outOfBoundsAddress }) ∨
      (target.toNat ≤ 4095 ∧ t = { s with ip := if c then target else s.ip + 3#16 }) := by
  by_cases hb : target.toNat ≤ 4095
  · rw [jump_inRange hb] at h
    exact .inr ⟨hb, (Host.Outcome.next.inj h).symm⟩
  · rw [jump_outOfRange (by omega)] at h
    exact .inl ⟨by omega, (Host.Outcome.next.inj h).symm⟩

/-! ### Checked accesses -/

theorem memRead1_inRange {s : State} {ea : Word} (h : ea.toNat ≤ 4095) : s.memRead1 ea = .ok (s.data.read ea.toNat) := by
  rw [State.memRead1, if_neg (by omega)]

theorem memRead1_outOfRange {s : State} {ea : Word} (h : 4095 < ea.toNat) :
    s.memRead1 ea = .raised .outOfBoundsAddress := by
  rw [State.memRead1, if_pos h]

theorem memRead2_inRange {s : State} {ea : Word} (h : ea.toNat ≤ 4094) :
    s.memRead2 ea = .ok (wordOf (s.data.read (ea.toNat + 1)) (s.data.read ea.toNat)) := by
  rw [State.memRead2, if_neg (by omega)]

theorem memRead2_outOfRange {s : State} {ea : Word} (h : 4094 < ea.toNat) :
    s.memRead2 ea = .raised .outOfBoundsAddress := by
  rw [State.memRead2, if_pos h]

theorem memWrite1_inRange {s : State} {ea : Word} {v : Byte} (h : ea.toNat ≤ 4095) :
    s.memWrite1 ea v = .ok { s with data := s.data.write ea.toNat v } := by
  rw [State.memWrite1, if_neg (by omega)]

theorem memWrite1_outOfRange {s : State} {ea : Word} {v : Byte} (h : 4095 < ea.toNat) :
    s.memWrite1 ea v = .raised .outOfBoundsAddress := by
  rw [State.memWrite1, if_pos h]

theorem memWrite2_inRange {s : State} {ea v : Word} (h : ea.toNat ≤ 4094) :
    s.memWrite2 ea v =
      .ok { s with data := (s.data.write ea.toNat (loByte v)).write (ea.toNat + 1) (hiByte v) } := by
  rw [State.memWrite2, if_neg (by omega)]

theorem memWrite2_outOfRange {s : State} {ea v : Word} (h : 4094 < ea.toNat) :
    s.memWrite2 ea v = .raised .outOfBoundsAddress := by
  rw [State.memWrite2, if_pos h]

/-- Everything a byte write can do. -/
theorem memWrite1_cases (s : State) (ea : Word) (v : Byte) :
    (4095 < ea.toNat ∧ s.memWrite1 ea v = .raised .outOfBoundsAddress) ∨
      (ea.toNat ≤ 4095 ∧ s.memWrite1 ea v = .ok { s with data := s.data.write ea.toNat v }) := by
  by_cases h : ea.toNat ≤ 4095
  · exact .inr ⟨h, memWrite1_inRange h⟩
  · exact .inl ⟨by omega, memWrite1_outOfRange (by omega)⟩

/-- Everything a word write can do. -/
theorem memWrite2_cases (s : State) (ea v : Word) :
    (4094 < ea.toNat ∧ s.memWrite2 ea v = .raised .outOfBoundsAddress) ∨
      (ea.toNat ≤ 4094 ∧ s.memWrite2 ea v =
        .ok { s with data := (s.data.write ea.toNat (loByte v)).write (ea.toNat + 1) (hiByte v) }) := by
  by_cases h : ea.toNat ≤ 4094
  · exact .inr ⟨h, memWrite2_inRange h⟩
  · exact .inl ⟨by omega, memWrite2_outOfRange (by omega)⟩

/-- Everything a byte read can do. -/
theorem memRead1_cases (s : State) (ea : Word) :
    (4095 < ea.toNat ∧ s.memRead1 ea = .raised .outOfBoundsAddress) ∨
      (ea.toNat ≤ 4095 ∧ s.memRead1 ea = .ok (s.data.read ea.toNat)) := by
  by_cases h : ea.toNat ≤ 4095
  · exact .inr ⟨h, memRead1_inRange h⟩
  · exact .inl ⟨by omega, memRead1_outOfRange (by omega)⟩

/-- Everything a word read can do. -/
theorem memRead2_cases (s : State) (ea : Word) :
    (4094 < ea.toNat ∧ s.memRead2 ea = .raised .outOfBoundsAddress) ∨
      (ea.toNat ≤ 4094 ∧ s.memRead2 ea = .ok (wordOf (s.data.read (ea.toNat + 1)) (s.data.read ea.toNat))) := by
  by_cases h : ea.toNat ≤ 4094
  · exact .inr ⟨h, memRead2_inRange h⟩
  · exact .inl ⟨by omega, memRead2_outOfRange (by omega)⟩

/-! ### The stack -/

/-- Everything a push can do. -/
theorem push_cases (s : State) (v : Word) :
    (s.sp = 0#16 ∧ s.push v = .raised .stackOverflow) ∨
      (∃ h : s.sp.toNat - 1 < 256, s.sp ≠ 0#16 ∧
        s.push v = .ok { s with sp := s.sp - 1#16, stack := s.stack.set (s.sp.toNat - 1) v }) ∨
      (256 < s.sp.toNat ∧ s.push v = .stuck .noSuchStackCell) := by
  unfold State.push
  by_cases h0 : s.sp = 0#16
  · exact .inl ⟨h0, if_pos h0⟩
  · by_cases h1 : s.sp.toNat - 1 < 256
    · exact .inr (.inl ⟨h1, h0, by rw [if_neg h0, dif_pos h1]⟩)
    · exact .inr (.inr ⟨by omega, by rw [if_neg h0, dif_neg h1]⟩)

/-- Everything reading the top of the stack can do. -/
theorem top_cases (s : State) :
    (s.sp = 256#16 ∧ s.top = .raised .stackUnderflow) ∨
      (∃ h : s.sp.toNat < 256, s.top = .ok s.stack[s.sp.toNat]) ∨
      (256 < s.sp.toNat ∧ s.top = .stuck .noSuchStackCell) := by
  unfold State.top
  by_cases h0 : s.sp = 256#16
  · exact .inl ⟨h0, if_pos h0⟩
  · have hn : s.sp.toNat ≠ 256 := fun h => h0 (BitVec.eq_of_toNat_eq (by simpa using h))
    by_cases h1 : s.sp.toNat < 256
    · exact .inr (.inl ⟨h1, by rw [if_neg h0, dif_pos h1]⟩)
    · exact .inr (.inr ⟨by omega, by rw [if_neg h0, dif_neg h1]⟩)

/-! ### A check and what follows it -/

/-- A single selector and what follows it: the register it names, or InvalidRegisterSelector. -/
theorem selOne_then {b : Byte} {s t : State} {k : RegIx → StepResult} (h : orRaise (selOne b) s k = .next t) :
    (∃ i : RegIx, b = i.byte ∧ k i = .next t) ∨
      (oneOk b = false ∧ t = { s with status := .faulted .invalidRegisterSelector }) := by
  rcases selOne_cases b with ⟨i, rfl, e⟩ | ⟨hb, e⟩
  · rw [e, orRaise_ok] at h
    exact .inl ⟨i, rfl, h⟩
  · rw [e, orRaise_raised] at h
    exact .inr ⟨hb, (Host.Outcome.next.inj h).symm⟩

/-- A pair selector and what follows it: the registers it names, or InvalidRegisterSelector. -/
theorem selPair_then {d r : Nibble} {s t : State} {k : RegIx × RegIx → StepResult}
    (h : orRaise (selPair d r) s k = .next t) :
    (∃ i j : RegIx, d = i.nibble ∧ r = j.nibble ∧ k (i, j) = .next t) ∨
      (pairOk d r = false ∧ t = { s with status := .faulted .invalidRegisterSelector }) := by
  rcases selPair_cases d r with ⟨i, j, rfl, rfl, e⟩ | ⟨hb, e⟩
  · rw [e, orRaise_ok] at h
    exact .inl ⟨i, j, rfl, rfl, h⟩
  · rw [e, orRaise_raised] at h
    exact .inr ⟨hb, (Host.Outcome.next.inj h).symm⟩

/-- A byte read and what follows it. -/
theorem memRead1_then {u s t : State} {ea : Word} {k : Byte → StepResult}
    (h : orRaise (u.memRead1 ea) s k = .next t) :
    (ea.toNat ≤ 4095 ∧ k (u.data.read ea.toNat) = .next t) ∨
      (4095 < ea.toNat ∧ t = { s with status := .faulted .outOfBoundsAddress }) := by
  rcases memRead1_cases u ea with ⟨hb, e⟩ | ⟨hb, e⟩ <;> rw [e] at h
  · exact .inr ⟨hb, (Host.Outcome.next.inj h).symm⟩
  · exact .inl ⟨hb, h⟩

/-- A word read and what follows it. -/
theorem memRead2_then {u s t : State} {ea : Word} {k : Word → StepResult}
    (h : orRaise (u.memRead2 ea) s k = .next t) :
    (ea.toNat ≤ 4094 ∧ k (wordOf (u.data.read (ea.toNat + 1)) (u.data.read ea.toNat)) = .next t) ∨
      (4094 < ea.toNat ∧ t = { s with status := .faulted .outOfBoundsAddress }) := by
  rcases memRead2_cases u ea with ⟨hb, e⟩ | ⟨hb, e⟩ <;> rw [e] at h
  · exact .inr ⟨hb, (Host.Outcome.next.inj h).symm⟩
  · exact .inl ⟨hb, h⟩

/-- A byte write and what follows it. -/
theorem memWrite1_then {u s t : State} {ea : Word} {v : Byte} {k : State → StepResult}
    (h : orRaise (u.memWrite1 ea v) s k = .next t) :
    (ea.toNat ≤ 4095 ∧ k { u with data := u.data.write ea.toNat v } = .next t) ∨
      (4095 < ea.toNat ∧ t = { s with status := .faulted .outOfBoundsAddress }) := by
  rcases memWrite1_cases u ea v with ⟨hb, e⟩ | ⟨hb, e⟩ <;> rw [e] at h
  · exact .inr ⟨hb, (Host.Outcome.next.inj h).symm⟩
  · exact .inl ⟨hb, h⟩

/-- A word write and what follows it. -/
theorem memWrite2_then {u s t : State} {ea v : Word} {k : State → StepResult}
    (h : orRaise (u.memWrite2 ea v) s k = .next t) :
    (ea.toNat ≤ 4094 ∧
        k { u with data := (u.data.write ea.toNat (loByte v)).write (ea.toNat + 1) (hiByte v) } = .next t) ∨
      (4094 < ea.toNat ∧ t = { s with status := .faulted .outOfBoundsAddress }) := by
  rcases memWrite2_cases u ea v with ⟨hb, e⟩ | ⟨hb, e⟩ <;> rw [e] at h
  · exact .inr ⟨hb, (Host.Outcome.next.inj h).symm⟩
  · exact .inl ⟨hb, h⟩

/-- A push and what follows it. -/
theorem push_then {u s t : State} {v : Word} {k : State → StepResult} (h : orRaise (u.push v) s k = .next t) :
    (∃ hb : u.sp.toNat - 1 < 256, u.sp ≠ 0#16 ∧
        k { u with sp := u.sp - 1#16, stack := u.stack.set (u.sp.toNat - 1) v } = .next t) ∨
      (u.sp = 0#16 ∧ t = { s with status := .faulted .stackOverflow }) := by
  rcases push_cases u v with ⟨hb, e⟩ | ⟨hb, h0, e⟩ | ⟨hb, e⟩ <;> rw [e] at h
  · exact .inr ⟨hb, (Host.Outcome.next.inj h).symm⟩
  · exact .inl ⟨hb, h0, h⟩
  · cases h

/-- A pop and what follows it. -/
theorem top_then {u s t : State} {k : Word → StepResult} (h : orRaise u.top s k = .next t) :
    (∃ hb : u.sp.toNat < 256, k u.stack[u.sp.toNat] = .next t) ∨
      (u.sp = 256#16 ∧ t = { s with status := .faulted .stackUnderflow }) := by
  rcases top_cases u with ⟨hb, e⟩ | ⟨hb, e⟩ | ⟨hb, e⟩ <;> rw [e] at h
  · exact .inr ⟨hb, (Host.Outcome.next.inj h).symm⟩
  · exact .inl ⟨hb, h⟩
  · cases h

/-! ### Completing -/

/-- A check that does not stop the model, followed by something that always answers a next state, does so too. -/
theorem orRaise_total {α : Type} {c : Checked α} {s : State} {k : α → StepResult} (hc : ∀ f, c ≠ .stuck f)
    (hk : ∀ a, ∃ t, k a = .next t) : ∃ t, orRaise c s k = .next t := by
  cases c with
  | ok a => exact hk a
  | raised r => exact ⟨_, rfl⟩
  | stuck f => exact absurd rfl (hc f)

theorem selOne_ne_stuck (b : Byte) (f : Fault) : selOne b ≠ .stuck f := by
  unfold selOne; split <;> simp

theorem selPair_ne_stuck (d r : Nibble) (f : Fault) : selPair d r ≠ .stuck f := by
  unfold selPair; split <;> simp

theorem memRead1_ne_stuck (s : State) (ea : Word) (f : Fault) : s.memRead1 ea ≠ .stuck f := by
  unfold State.memRead1; split <;> simp

theorem memRead2_ne_stuck (s : State) (ea : Word) (f : Fault) : s.memRead2 ea ≠ .stuck f := by
  unfold State.memRead2; split <;> simp

theorem memWrite1_ne_stuck (s : State) (ea : Word) (v : Byte) (f : Fault) : s.memWrite1 ea v ≠ .stuck f := by
  unfold State.memWrite1; split <;> simp

theorem memWrite2_ne_stuck (s : State) (ea v : Word) (f : Fault) : s.memWrite2 ea v ≠ .stuck f := by
  unfold State.memWrite2; split <;> simp

/-- A push stops the model only on a `sp` above 256. -/
theorem push_ne_stuck {s : State} (h : s.sp.toNat ≤ 256) (v : Word) (f : Fault) : s.push v ≠ .stuck f := by
  rcases push_cases s v with ⟨_, e⟩ | ⟨_, _, e⟩ | ⟨hb, -⟩
  · simp [e]
  · simp [e]
  · omega

/-- A pop stops the model only on a `sp` above 256. -/
theorem top_ne_stuck {s : State} (h : s.sp.toNat ≤ 256) (f : Fault) : s.top ≠ .stuck f := by
  rcases top_cases s with ⟨_, e⟩ | ⟨_, e⟩ | ⟨hb, -⟩
  · simp [e]
  · simp [e]
  · omega

/-- A jump always has a next state. -/
theorem jump_total (target : Word) (c : Bool) (s : State) : ∃ t, jump target c s = .next t := by
  unfold jump; split <;> exact ⟨_, rfl⟩

/-! ### The top of a stack that is not empty, or is -/

theorem top_of_lt {s : State} (h : s.sp.toNat < 256) : s.top = .ok s.stack[s.sp.toNat] := by
  rcases top_cases s with ⟨e, -⟩ | ⟨_, e⟩ | ⟨hb, -⟩
  · rw [e] at h; exact absurd h (by decide)
  · exact e
  · omega

theorem top_of_empty {s : State} (h : s.sp.toNat = 256) : s.top = .raised .stackUnderflow := by
  rcases top_cases s with ⟨-, e⟩ | ⟨hb, -⟩ | ⟨hb, -⟩
  · exact e
  · omega
  · omega

theorem push_of_pos {s : State} (h : s.sp.toNat - 1 < 256) (h0 : 0 < s.sp.toNat) (v : Word) :
    s.push v = .ok { s with sp := s.sp - 1#16, stack := s.stack.set (s.sp.toNat - 1) v } := by
  rcases push_cases s v with ⟨e, -⟩ | ⟨_, _, e⟩ | ⟨hb, -⟩
  · rw [e] at h0; exact absurd h0 (by decide)
  · exact e
  · omega

theorem push_of_full {s : State} (h : s.sp.toNat = 0) (v : Word) : s.push v = .raised .stackOverflow := by
  rw [State.push, if_pos (BitVec.eq_of_toNat_eq (by simpa using h))]

/-! ### The free values -/

/-- A faulting PRINT_STR adds some prefix of `data[a..4095]` to the output and draws once. -/
theorem emitFaultOutput_spec (s : State) (a : Nat) : ∃ n, s.emitFaultOutput a =
    { s with output := s.output ++ (s.data.bytes a (4096 - a)).take n, draws := s.draws + 1 } :=
  ⟨_, rfl⟩

/-- A faulting SCAN_STR changes `data[a..4095]` at most and draws once. -/
theorem scrambleFrom_spec (s : State) {a : Nat} (ha : a ≤ 4095) : ∃ m : Memory,
    s.scrambleFrom a = { s with data := m, draws := s.draws + 1 } ∧
      (∀ b, b < a → m.read b = s.data.read b) ∧ (s.data.wf → m.wf) := by
  refine ⟨_, rfl, fun b hb => Memory.read_writeBytes_of_outside _ _ (.inl hb), fun h => Memory.wf_writeBytes h _ ?_⟩
  simp; omega

/-! ### The input line -/

/-- The next line is what stands before the first 0x0A. -/
theorem nextLine_eq_some {bs line rest : List Byte} :
    nextLine bs = some (line, rest) ↔ bs = line ++ newline :: rest ∧ newline ∉ line := by
  induction bs generalizing line with
  | nil => simp [nextLine]
  | cons b bs ih =>
    rw [nextLine]
    split
    · rename_i hb
      constructor
      · intro h
        obtain ⟨rfl, rfl⟩ := Prod.mk.inj (Option.some.inj h)
        simp [hb]
      · rintro ⟨h1, h2⟩
        cases line with
        | nil => simp_all
        | cons c line =>
          rw [List.cons_append, List.cons.injEq] at h1
          exact absurd (by simp [← h1.1, hb]) h2
    · rename_i hb
      rw [Option.map_eq_some_iff]
      constructor
      · rintro ⟨⟨l, r⟩, h1, h2⟩
        obtain ⟨rfl, rfl⟩ := Prod.mk.inj h2
        obtain ⟨rfl, h4⟩ := ih.mp h1
        exact ⟨rfl, by simp [h4, Ne.symm hb]⟩
      · rintro ⟨h1, h2⟩
        cases line with
        | nil => simp_all
        | cons c line =>
          rw [List.cons_append, List.cons.injEq] at h1
          refine ⟨(line, rest), ih.mpr ⟨h1.2, fun h => h2 (List.mem_cons_of_mem _ h)⟩, by simp [h1.1]⟩

/-- No line has arrived iff no 0x0A has. -/
theorem nextLine_eq_none {bs : List Byte} : nextLine bs = none ↔ newline ∉ bs := by
  induction bs with
  | nil => simp [nextLine]
  | cons b bs ih =>
    rw [nextLine]
    split
    · rename_i hb
      simp [hb]
    · rename_i hb
      simp [ih, Ne.symm hb]

/-- A line from the host ends the wait: then there is a next line. -/
theorem nextLine_supplyLine (s : State) (line : List Byte) : ∃ p, nextLine (s.supplyLine line).input = some p := by
  cases h : nextLine (s.supplyLine line).input with
  | some p => exact ⟨p, rfl⟩
  | none => exact absurd (by simp [State.supplyLine]) (nextLine_eq_none.mp h)

end Sys2Proof.Machine
end

