-- ==== Sys2Proof/Laws/Exec.lean ====
section
/-! SUPPORT. What one instruction can do, said once: every next state that `exec` answers has one of the shapes of
`Effect`. The rules about the whole machine are read off from it. -/

namespace Sys2Proof.Machine

/-- The next states of the instruction `i` from `s`. -/
inductive Effect (i : Instr) (s : State) : State → Prop where
  /-- A fault that changes nothing but `status`. -/
  | fault (r : FaultReason) (hr : r ≠ .invalidOpcode ∧ r ≠ .unterminatedOrOversizedIO) :
      Effect i s { s with status := .faulted r }
  | nop (hi : i = .nop) : Effect i s { s with ip := s.ip + 1#16 }
  /-- A data movement to a register. -/
  | load (d : RegIx) (v : Word) (hi : i.opcode ∈ dataMovementOpcodes) (hw : i.opcode ∈ registerWriters)
      (hd : i.destination = some d.val) :
      Effect i s { s.setReg d v with ip := s.ip + BitVec.ofNat 16 i.length }
  /-- A data movement to `data`. -/
  | store (m : Memory) (hm : s.data.wf → m.wf) (hi : i.opcode ∈ dataMovementOpcodes) (hw : i.opcode ∈ dataWriters) :
      Effect i s { s with data := m, ip := s.ip + BitVec.ofNat 16 i.length }
  | jumped (a : Word) (ha : a.toNat ≤ 4095) (hi : i.opcode ∈ jumpOpcodes) : Effect i s { s with ip := a }
  | fellThrough (hi : i.opcode ∈ jumpOpcodes) : Effect i s { s with ip := s.ip + BitVec.ofNat 16 i.length }
  /-- An ALU result to a register, with its flags. -/
  | alu (d : RegIx) (v : Word) (z c : Bool) (hi : i.opcode ∈ aluResultOpcodes) (hd : i.destination = some d.val)
      (hzc : z = true → c = true → i.opcode ∈ addOpcodes) :
      Effect i s { s.setReg d v with zf := z, cf := c, ip := s.ip + BitVec.ofNat 16 i.length }
  | compared (z c : Bool) (hi : i.opcode ∈ aluOpcodes) (hzc : z = true → c = false) :
      Effect i s { s with zf := z, cf := c, ip := s.ip + BitVec.ofNat 16 i.length }
  | pushed (j : RegIx) (hi : i = .pushRs j.byte) (h0 : s.sp ≠ 0#16) (h : s.sp.toNat - 1 < 256) :
      Effect i s { s with
        sp := s.sp - 1#16, stack := s.stack.set (s.sp.toNat - 1) (s.reg j), ip := s.ip + 2#16 }
  | popped (d : RegIx) (hi : i = .popRd d.byte) (h : s.sp.toNat < 256) :
      Effect i s { s.setReg d s.stack[s.sp.toNat] with sp := s.sp + 1#16, ip := s.ip + 2#16 }
  | printed (bs : List Byte) (hi : i = .printInt ∨ i = .printStr) (h : s.sp.toNat < 256) :
      Effect i s { s with sp := s.sp + 1#16, output := s.output ++ bs, ip := s.ip + 1#16 }
  | badAddress (hi : i = .printStr ∨ i = .scanStr) (h : s.sp.toNat < 256) :
      Effect i s { s with sp := s.sp + 1#16, status := .faulted .outOfBoundsAddress }
  | unterminated (n : Nat) (hi : i = .printStr) (h : s.sp.toNat < 256) :
      Effect i s { s with
        sp := s.sp + 1#16, draws := s.draws + 1, status := .faulted .unterminatedOrOversizedIO,
        output := s.output ++
          (s.data.bytes s.stack[s.sp.toNat].toNat (4096 - s.stack[s.sp.toNat].toNat)).take n }
  | oversized (m : Memory) (ln rest : List Byte) (hi : i = .scanStr) (h : s.sp.toNat < 256)
      (hin : s.input = ln ++ newline :: rest) (hln : newline ∉ ln) (hm : s.data.wf → m.wf)
      (hb : ∀ b, b < s.stack[s.sp.toNat].toNat → m.read b = s.data.read b) :
      Effect i s { s with
        sp := s.sp + 1#16, draws := s.draws + 1, status := .faulted .unterminatedOrOversizedIO, input := rest,
        data := m }
  | scanned (m : Memory) (ln rest : List Byte) (hi : i = .scanStr) (h : s.sp.toNat < 256)
      (hin : s.input = ln ++ newline :: rest) (hln : newline ∉ ln) (hm : s.data.wf → m.wf) :
      Effect i s { s with sp := s.sp + 1#16, ip := s.ip + 1#16, input := rest, data := m }
  | halts (hi : i = .halt) : Effect i s { s with ip := s.ip + 1#16, status := .halted }

/-- An invalid selector's fault. -/
theorem Effect.badSelector {i : Instr} {s : State} :
    Effect i s { s with status := .faulted .invalidRegisterSelector } := .fault _ (by decide)

/-- An address out of range. -/
theorem Effect.outOfRange {i : Instr} {s : State} :
    Effect i s { s with status := .faulted .outOfBoundsAddress } := .fault _ (by decide)

/-- Membership in a list of opcodes, by evaluation. -/
theorem mem_opcodes {b : Byte} {l : List Byte} (h : l.elem b = true) : b ∈ l := List.elem_iff.mp h

theorem effect_of_jump {i : Instr} {s t : State} {target : Word} {c : Bool} (hi : i.opcode ∈ jumpOpcodes)
    (hl : i.length = 3) (h : jump target c s = .next t) : Effect i s t := by
  rcases jump_next h with ⟨-, rfl⟩ | ⟨hb, rfl⟩
  · exact .outOfRange
  · cases c
    · rw [show (3#16 : Word) = BitVec.ofNat 16 i.length by rw [hl]]
      exact .fellThrough hi
    · exact .jumped _ hb hi

section
variable {s t : State}

/-! ### Data movement -/

theorem effect_nop (h : execNop s = .next t) : Effect .nop s t := complete_next.mp h ▸ .nop rfl

theorem effect_movRdRs {d r : Nibble} (h : execMovRdRs d r s = .next t) : Effect (.movRdRs d r) s t := by
  rcases selPair_then h with ⟨i, j, rfl, rfl, h1⟩ | ⟨-, rfl⟩
  · exact complete_next.mp h1 ▸ .load _ _ (mem_opcodes rfl) (mem_opcodes rfl) (by simp [Instr.destination])
  · exact .badSelector

theorem effect_movxRdByteAddr {d : Byte} {a : Word} (h : execMovxRdByteAddr d a s = .next t) : Effect (.movxRdByteAddr d a) s t := by
  rcases selOne_then h with ⟨i, rfl, h1⟩ | ⟨-, rfl⟩
  · rcases memRead1_then h1 with ⟨hb, h2⟩ | ⟨-, rfl⟩
    · exact complete_next.mp h2 ▸ .load _ _ (mem_opcodes rfl) (mem_opcodes rfl) (by simp [Instr.destination])
    · exact .outOfRange
  · exact .badSelector

theorem effect_movRdWordAddr {d : Byte} {a : Word} (h : execMovRdWordAddr d a s = .next t) : Effect (.movRdWordAddr d a) s t := by
  rcases selOne_then h with ⟨i, rfl, h1⟩ | ⟨-, rfl⟩
  · rcases memRead2_then h1 with ⟨hb, h2⟩ | ⟨-, rfl⟩
    · exact complete_next.mp h2 ▸ .load _ _ (mem_opcodes rfl) (mem_opcodes rfl) (by simp [Instr.destination])
    · exact .outOfRange
  · exact .badSelector

theorem effect_movxRdImm8 {d imm : Byte} (h : execMovxRdImm8 d imm s = .next t) : Effect (.movxRdImm8 d imm) s t := by
  rcases selOne_then h with ⟨i, rfl, h1⟩ | ⟨-, rfl⟩
  · exact complete_next.mp h1 ▸ .load _ _ (mem_opcodes rfl) (mem_opcodes rfl) (by simp [Instr.destination])
  · exact .badSelector

theorem effect_movRdImm16 {d : Byte} {imm : Word} (h : execMovRdImm16 d imm s = .next t) : Effect (.movRdImm16 d imm) s t := by
  rcases selOne_then h with ⟨i, rfl, h1⟩ | ⟨-, rfl⟩
  · exact complete_next.mp h1 ▸ .load _ _ (mem_opcodes rfl) (mem_opcodes rfl) (by simp [Instr.destination])
  · exact .badSelector

theorem effect_movByteAddrRs {r : Byte} {a : Word} (h : execMovByteAddrRs r a s = .next t) : Effect (.movByteAddrRs r a) s t := by
  rcases selOne_then h with ⟨i, rfl, h1⟩ | ⟨-, rfl⟩
  · rcases memWrite1_then h1 with ⟨hb, h2⟩ | ⟨-, rfl⟩
    · exact complete_next.mp h2 ▸ .store _ (fun hw => Memory.wf_write hw (by omega) _) (mem_opcodes rfl) (mem_opcodes rfl)
    · exact .outOfRange
  · exact .badSelector

theorem effect_movWordAddrRs {r : Byte} {a : Word} (h : execMovWordAddrRs r a s = .next t) : Effect (.movWordAddrRs r a) s t := by
  rcases selOne_then h with ⟨i, rfl, h1⟩ | ⟨-, rfl⟩
  · rcases memWrite2_then h1 with ⟨hb, h2⟩ | ⟨-, rfl⟩
    · exact complete_next.mp h2 ▸ .store _ (fun hw => Memory.wf_write (Memory.wf_write hw (by omega) _) (by omega) _) (mem_opcodes rfl) (mem_opcodes rfl)
    · exact .outOfRange
  · exact .badSelector

theorem effect_movByteRdRs {d r : Nibble} (h : execMovByteRdRs d r s = .next t) : Effect (.movByteRdRs d r) s t := by
  rcases selPair_then h with ⟨i, j, rfl, rfl, h1⟩ | ⟨-, rfl⟩
  · rcases memWrite1_then h1 with ⟨hb, h2⟩ | ⟨-, rfl⟩
    · exact complete_next.mp h2 ▸ .store _ (fun hw => Memory.wf_write hw (by omega) _) (mem_opcodes rfl) (mem_opcodes rfl)
    · exact .outOfRange
  · exact .badSelector

theorem effect_movxRdByteRs {d r : Nibble} (h : execMovxRdByteRs d r s = .next t) : Effect (.movxRdByteRs d r) s t := by
  rcases selPair_then h with ⟨i, j, rfl, rfl, h1⟩ | ⟨-, rfl⟩
  · rcases memRead1_then h1 with ⟨hb, h2⟩ | ⟨-, rfl⟩
    · exact complete_next.mp h2 ▸ .load _ _ (mem_opcodes rfl) (mem_opcodes rfl) (by simp [Instr.destination])
    · exact .outOfRange
  · exact .badSelector

/-! ### Arithmetic -/

theorem effect_addRdImm16 {d : Byte} {imm : Word} (h : execAddRdImm16 d imm s = .next t) : Effect (.addRdImm16 d imm) s t := by
  rcases selOne_then h with ⟨i, rfl, h1⟩ | ⟨-, rfl⟩
  · exact complete_next.mp h1 ▸ .alu _ _ _ _ (mem_opcodes rfl) (by simp [Instr.destination]) fun _ _ => mem_opcodes rfl
  · exact .badSelector

theorem effect_addRdRs {d r : Nibble} (h : execAddRdRs d r s = .next t) : Effect (.addRdRs d r) s t := by
  rcases selPair_then h with ⟨i, j, rfl, rfl, h1⟩ | ⟨-, rfl⟩
  · exact complete_next.mp h1 ▸ .alu _ _ _ _ (mem_opcodes rfl) (by simp [Instr.destination]) fun _ _ => mem_opcodes rfl
  · exact .badSelector

theorem effect_addlRdRs {d r : Nibble} (h : execAddlRdRs d r s = .next t) : Effect (.addlRdRs d r) s t := by
  rcases selPair_then h with ⟨i, j, rfl, rfl, h1⟩ | ⟨-, rfl⟩
  · exact complete_next.mp h1 ▸ .alu _ _ _ _ (mem_opcodes rfl) (by simp [Instr.destination]) fun _ _ => mem_opcodes rfl
  · exact .badSelector

theorem effect_addlRdImm8 {d imm : Byte} (h : execAddlRdImm8 d imm s = .next t) : Effect (.addlRdImm8 d imm) s t := by
  rcases selOne_then h with ⟨i, rfl, h1⟩ | ⟨-, rfl⟩
  · exact complete_next.mp h1 ▸ .alu _ _ _ _ (mem_opcodes rfl) (by simp [Instr.destination]) fun _ _ => mem_opcodes rfl
  · exact .badSelector

theorem effect_subRdImm16 {d : Byte} {imm : Word} (h : execSubRdImm16 d imm s = .next t) : Effect (.subRdImm16 d imm) s t := by
  rcases selOne_then h with ⟨i, rfl, h1⟩ | ⟨-, rfl⟩
  · exact complete_next.mp h1 ▸ .alu _ _ _ _ (mem_opcodes rfl) (by simp [Instr.destination]) fun hz hc => absurd ((subW_cf_of_zf hz).symm.trans hc) (by decide)
  · exact .badSelector

theorem effect_subRdRs {d r : Nibble} (h : execSubRdRs d r s = .next t) : Effect (.subRdRs d r) s t := by
  rcases selPair_then h with ⟨i, j, rfl, rfl, h1⟩ | ⟨-, rfl⟩
  · exact complete_next.mp h1 ▸ .alu _ _ _ _ (mem_opcodes rfl) (by simp [Instr.destination]) fun hz hc => absurd ((subW_cf_of_zf hz).symm.trans hc) (by decide)
  · exact .badSelector

theorem effect_sublRdRs {d r : Nibble} (h : execSublRdRs d r s = .next t) : Effect (.sublRdRs d r) s t := by
  rcases selPair_then h with ⟨i, j, rfl, rfl, h1⟩ | ⟨-, rfl⟩
  · exact complete_next.mp h1 ▸ .alu _ _ _ _ (mem_opcodes rfl) (by simp [Instr.destination]) fun hz hc => absurd ((subB_cf_of_zf hz).symm.trans hc) (by decide)
  · exact .badSelector

theorem effect_sublRdImm8 {d imm : Byte} (h : execSublRdImm8 d imm s = .next t) : Effect (.sublRdImm8 d imm) s t := by
  rcases selOne_then h with ⟨i, rfl, h1⟩ | ⟨-, rfl⟩
  · exact complete_next.mp h1 ▸ .alu _ _ _ _ (mem_opcodes rfl) (by simp [Instr.destination]) fun hz hc => absurd ((subB_cf_of_zf hz).symm.trans hc) (by decide)
  · exact .badSelector

theorem effect_xorRdRs {d r : Nibble} (h : execXorRdRs d r s = .next t) : Effect (.xorRdRs d r) s t := by
  rcases selPair_then h with ⟨i, j, rfl, rfl, h1⟩ | ⟨-, rfl⟩
  · exact complete_next.mp h1 ▸ .alu _ _ _ _ (mem_opcodes rfl) (by simp [Instr.destination]) fun _ hc => absurd hc Bool.false_ne_true
  · exact .badSelector

theorem effect_xorlRdRs {d r : Nibble} (h : execXorlRdRs d r s = .next t) : Effect (.xorlRdRs d r) s t := by
  rcases selPair_then h with ⟨i, j, rfl, rfl, h1⟩ | ⟨-, rfl⟩
  · exact complete_next.mp h1 ▸ .alu _ _ _ _ (mem_opcodes rfl) (by simp [Instr.destination]) fun _ hc => absurd hc Bool.false_ne_true
  · exact .badSelector

theorem effect_cmpRdRs {d r : Nibble} (h : execCmpRdRs d r s = .next t) : Effect (.cmpRdRs d r) s t := by
  rcases selPair_then h with ⟨i, j, rfl, rfl, h1⟩ | ⟨-, rfl⟩
  · exact complete_next.mp h1 ▸ .compared _ _ (mem_opcodes rfl) cmpCfW_of_zf
  · exact .badSelector

theorem effect_cmplRdRs {d r : Nibble} (h : execCmplRdRs d r s = .next t) : Effect (.cmplRdRs d r) s t := by
  rcases selPair_then h with ⟨i, j, rfl, rfl, h1⟩ | ⟨-, rfl⟩
  · exact complete_next.mp h1 ▸ .compared _ _ (mem_opcodes rfl) cmpCfB_of_zf
  · exact .badSelector

/-! ### The stack -/

theorem effect_pushRs {r : Byte} (h : execPushRs r s = .next t) : Effect (.pushRs r) s t := by
  rcases selOne_then h with ⟨i, rfl, h1⟩ | ⟨-, rfl⟩
  · rcases push_then h1 with ⟨hb, h0, h2⟩ | ⟨-, rfl⟩
    · exact complete_next.mp h2 ▸ .pushed i rfl h0 hb
    · exact .fault _ (by decide)
  · exact .badSelector

theorem effect_popRd {d : Byte} (h : execPopRd d s = .next t) : Effect (.popRd d) s t := by
  rcases selOne_then h with ⟨i, rfl, h1⟩ | ⟨-, rfl⟩
  · rcases top_then h1 with ⟨hb, h2⟩ | ⟨-, rfl⟩
    · exact complete_next.mp h2 ▸ .popped i rfl hb
    · exact .fault _ (by decide)
  · exact .badSelector

/-! ### Input and output -/

theorem effect_printInt (h : execPrintInt s = .next t) : Effect .printInt s t := by
  rcases top_then h with ⟨hb, h1⟩ | ⟨-, rfl⟩
  · exact complete_next.mp h1 ▸ .printed _ (.inl rfl) hb
  · exact .fault _ (by decide)

theorem effect_printStr (h : execPrintStr s = .next t) : Effect .printStr s t := by
  rcases top_then h with ⟨hb, h1⟩ | ⟨-, rfl⟩
  · split at h1
    · exact raise_next.mp h1 ▸ .badAddress (.inl rfl) hb
    · split at h1
      · exact raise_next.mp h1 ▸ .unterminated _ rfl hb
      · exact complete_next.mp h1 ▸ .printed _ (.inr rfl) hb
  · exact .fault _ (by decide)

theorem effect_scanStr (h : execScanStr s = .next t) : Effect .scanStr s t := by
  rcases top_then h with ⟨hb, h1⟩ | ⟨-, rfl⟩
  · split at h1
    · exact raise_next.mp h1 ▸ .badAddress (.inr rfl) hb
    · rename_i ha
      split at h1
      · exact absurd h1 (awaitLine_ne_next t)
      · rename_i hl
        obtain ⟨hin, hln⟩ := nextLine_eq_some.mp hl
        split at h1
        · obtain ⟨m, e, hlow, hm⟩ := scrambleFrom_spec _ (Nat.le_of_not_lt ha)
          rw [e] at h1
          exact raise_next.mp h1 ▸ .oversized m _ _ rfl hb hin hln hm hlow
        · exact complete_next.mp h1 ▸
            .scanned _ _ _ rfl hb hin hln fun hw => Memory.wf_writeBytes hw _ (by simp; omega)
  · exact .fault _ (by decide)

theorem effect_halt (h : execHalt s = .next t) : Effect .halt s t := haltAt_next.mp h ▸ .halts rfl

end

/-- Everything one instruction can do. -/
theorem exec_effect {i : Instr} {s t : State} (h : exec i s = .next t) : Effect i s t := by
  cases i with
  | nop => exact effect_nop h
  | movRdRs => exact effect_movRdRs h
  | movxRdByteAddr => exact effect_movxRdByteAddr h
  | movRdWordAddr => exact effect_movRdWordAddr h
  | movxRdImm8 => exact effect_movxRdImm8 h
  | movRdImm16 => exact effect_movRdImm16 h
  | movByteAddrRs => exact effect_movByteAddrRs h
  | movWordAddrRs => exact effect_movWordAddrRs h
  | movByteRdRs => exact effect_movByteRdRs h
  | movxRdByteRs => exact effect_movxRdByteRs h
  | jmp => exact effect_of_jump (mem_opcodes rfl) rfl h
  | jz => exact effect_of_jump (mem_opcodes rfl) rfl h
  | jnz => exact effect_of_jump (mem_opcodes rfl) rfl h
  | jae => exact effect_of_jump (mem_opcodes rfl) rfl h
  | jbe => exact effect_of_jump (mem_opcodes rfl) rfl h
  | jb => exact effect_of_jump (mem_opcodes rfl) rfl h
  | ja => exact effect_of_jump (mem_opcodes rfl) rfl h
  | addRdImm16 => exact effect_addRdImm16 h
  | addRdRs => exact effect_addRdRs h
  | addlRdRs => exact effect_addlRdRs h
  | addlRdImm8 => exact effect_addlRdImm8 h
  | subRdImm16 => exact effect_subRdImm16 h
  | subRdRs => exact effect_subRdRs h
  | sublRdRs => exact effect_sublRdRs h
  | sublRdImm8 => exact effect_sublRdImm8 h
  | xorRdRs => exact effect_xorRdRs h
  | xorlRdRs => exact effect_xorlRdRs h
  | cmpRdRs => exact effect_cmpRdRs h
  | cmplRdRs => exact effect_cmplRdRs h
  | pushRs => exact effect_pushRs h
  | popRd => exact effect_popRd h
  | printInt => exact effect_printInt h
  | printStr => exact effect_printStr h
  | scanStr => exact effect_scanStr h
  | halt => exact effect_halt h

end Sys2Proof.Machine
end

