-- ==== Sys2Proof/Laws/PerInstr.lean ====
section
/-! SUPPORT. The shape of every instruction's encoding, one lemma per constructor. -/

namespace Sys2Proof.Laws.EncodingShape

/-- The encoding begins with one of the 35 opcodes and is 1 to 4 bytes long (30_encoding.md R60, R70). -/
def Statement (i : Instr) : Prop :=
  illegalOpcode i.opcode = false ∧ (encode i).head? = some i.opcode ∧ 1 ≤ i.length ∧ i.length ≤ 4

theorem nop : Statement (.nop) :=
  ⟨rfl, rfl, Nat.le_of_ble_eq_true rfl, Nat.le_of_ble_eq_true rfl⟩
theorem movRdRs (d r : Nibble) : Statement (.movRdRs d r) :=
  ⟨rfl, rfl, Nat.le_of_ble_eq_true rfl, Nat.le_of_ble_eq_true rfl⟩
theorem movxRdByteAddr (d : Byte) (addr : Word) : Statement (.movxRdByteAddr d addr) :=
  ⟨rfl, rfl, Nat.le_of_ble_eq_true rfl, Nat.le_of_ble_eq_true rfl⟩
theorem movRdWordAddr (d : Byte) (addr : Word) : Statement (.movRdWordAddr d addr) :=
  ⟨rfl, rfl, Nat.le_of_ble_eq_true rfl, Nat.le_of_ble_eq_true rfl⟩
theorem movxRdImm8 (d : Byte) (imm : Byte) : Statement (.movxRdImm8 d imm) :=
  ⟨rfl, rfl, Nat.le_of_ble_eq_true rfl, Nat.le_of_ble_eq_true rfl⟩
theorem movRdImm16 (d : Byte) (imm : Word) : Statement (.movRdImm16 d imm) :=
  ⟨rfl, rfl, Nat.le_of_ble_eq_true rfl, Nat.le_of_ble_eq_true rfl⟩
theorem movByteAddrRs (r : Byte) (addr : Word) : Statement (.movByteAddrRs r addr) :=
  ⟨rfl, rfl, Nat.le_of_ble_eq_true rfl, Nat.le_of_ble_eq_true rfl⟩
theorem movWordAddrRs (r : Byte) (addr : Word) : Statement (.movWordAddrRs r addr) :=
  ⟨rfl, rfl, Nat.le_of_ble_eq_true rfl, Nat.le_of_ble_eq_true rfl⟩
theorem movByteRdRs (d r : Nibble) : Statement (.movByteRdRs d r) :=
  ⟨rfl, rfl, Nat.le_of_ble_eq_true rfl, Nat.le_of_ble_eq_true rfl⟩
theorem movxRdByteRs (d r : Nibble) : Statement (.movxRdByteRs d r) :=
  ⟨rfl, rfl, Nat.le_of_ble_eq_true rfl, Nat.le_of_ble_eq_true rfl⟩
theorem jmp (target : Word) : Statement (.jmp target) :=
  ⟨rfl, rfl, Nat.le_of_ble_eq_true rfl, Nat.le_of_ble_eq_true rfl⟩
theorem jz (target : Word) : Statement (.jz target) :=
  ⟨rfl, rfl, Nat.le_of_ble_eq_true rfl, Nat.le_of_ble_eq_true rfl⟩
theorem jnz (target : Word) : Statement (.jnz target) :=
  ⟨rfl, rfl, Nat.le_of_ble_eq_true rfl, Nat.le_of_ble_eq_true rfl⟩
theorem jae (target : Word) : Statement (.jae target) :=
  ⟨rfl, rfl, Nat.le_of_ble_eq_true rfl, Nat.le_of_ble_eq_true rfl⟩
theorem jbe (target : Word) : Statement (.jbe target) :=
  ⟨rfl, rfl, Nat.le_of_ble_eq_true rfl, Nat.le_of_ble_eq_true rfl⟩
theorem jb (target : Word) : Statement (.jb target) :=
  ⟨rfl, rfl, Nat.le_of_ble_eq_true rfl, Nat.le_of_ble_eq_true rfl⟩
theorem ja (target : Word) : Statement (.ja target) :=
  ⟨rfl, rfl, Nat.le_of_ble_eq_true rfl, Nat.le_of_ble_eq_true rfl⟩
theorem addRdImm16 (d : Byte) (imm : Word) : Statement (.addRdImm16 d imm) :=
  ⟨rfl, rfl, Nat.le_of_ble_eq_true rfl, Nat.le_of_ble_eq_true rfl⟩
theorem addRdRs (d r : Nibble) : Statement (.addRdRs d r) :=
  ⟨rfl, rfl, Nat.le_of_ble_eq_true rfl, Nat.le_of_ble_eq_true rfl⟩
theorem addlRdRs (d r : Nibble) : Statement (.addlRdRs d r) :=
  ⟨rfl, rfl, Nat.le_of_ble_eq_true rfl, Nat.le_of_ble_eq_true rfl⟩
theorem addlRdImm8 (d : Byte) (imm : Byte) : Statement (.addlRdImm8 d imm) :=
  ⟨rfl, rfl, Nat.le_of_ble_eq_true rfl, Nat.le_of_ble_eq_true rfl⟩
theorem subRdImm16 (d : Byte) (imm : Word) : Statement (.subRdImm16 d imm) :=
  ⟨rfl, rfl, Nat.le_of_ble_eq_true rfl, Nat.le_of_ble_eq_true rfl⟩
theorem subRdRs (d r : Nibble) : Statement (.subRdRs d r) :=
  ⟨rfl, rfl, Nat.le_of_ble_eq_true rfl, Nat.le_of_ble_eq_true rfl⟩
theorem sublRdRs (d r : Nibble) : Statement (.sublRdRs d r) :=
  ⟨rfl, rfl, Nat.le_of_ble_eq_true rfl, Nat.le_of_ble_eq_true rfl⟩
theorem sublRdImm8 (d : Byte) (imm : Byte) : Statement (.sublRdImm8 d imm) :=
  ⟨rfl, rfl, Nat.le_of_ble_eq_true rfl, Nat.le_of_ble_eq_true rfl⟩
theorem xorRdRs (d r : Nibble) : Statement (.xorRdRs d r) :=
  ⟨rfl, rfl, Nat.le_of_ble_eq_true rfl, Nat.le_of_ble_eq_true rfl⟩
theorem xorlRdRs (d r : Nibble) : Statement (.xorlRdRs d r) :=
  ⟨rfl, rfl, Nat.le_of_ble_eq_true rfl, Nat.le_of_ble_eq_true rfl⟩
theorem cmpRdRs (d r : Nibble) : Statement (.cmpRdRs d r) :=
  ⟨rfl, rfl, Nat.le_of_ble_eq_true rfl, Nat.le_of_ble_eq_true rfl⟩
theorem cmplRdRs (d r : Nibble) : Statement (.cmplRdRs d r) :=
  ⟨rfl, rfl, Nat.le_of_ble_eq_true rfl, Nat.le_of_ble_eq_true rfl⟩
theorem pushRs (r : Byte) : Statement (.pushRs r) :=
  ⟨rfl, rfl, Nat.le_of_ble_eq_true rfl, Nat.le_of_ble_eq_true rfl⟩
theorem popRd (d : Byte) : Statement (.popRd d) :=
  ⟨rfl, rfl, Nat.le_of_ble_eq_true rfl, Nat.le_of_ble_eq_true rfl⟩
theorem printInt : Statement (.printInt) :=
  ⟨rfl, rfl, Nat.le_of_ble_eq_true rfl, Nat.le_of_ble_eq_true rfl⟩
theorem printStr : Statement (.printStr) :=
  ⟨rfl, rfl, Nat.le_of_ble_eq_true rfl, Nat.le_of_ble_eq_true rfl⟩
theorem scanStr : Statement (.scanStr) :=
  ⟨rfl, rfl, Nat.le_of_ble_eq_true rfl, Nat.le_of_ble_eq_true rfl⟩
theorem halt : Statement (.halt) :=
  ⟨rfl, rfl, Nat.le_of_ble_eq_true rfl, Nat.le_of_ble_eq_true rfl⟩

end Sys2Proof.Laws.EncodingShape
end

