-- ==== Sys2Proof/Machine/HostSide.lean ====
section
/-! DEFINITION. A core and its host together (60_exceptions.md R219): the run in which the host answers the core's
requests for a line. -/

namespace Sys2Proof.Machine

/-- At most `n` advances from `s`, with the host `host`, the argument `INPUT` without a bound: its answer to the core's
`k`-th request for a line, counted from 0, or none where it never answers (44_io.md R171, 60_exceptions.md R219, R220).
A step of the core is an advance, and so is an answer to a blocked core. The run stays where no advance is possible: in
Halted, in Faulted, or blocked for ever. -/
def State.runWith (host : Nat → Option (List Byte)) : Nat → Nat → State → State
  | 0, _, s => s
  | n + 1, k, s =>
    match step s with
    | .next t => State.runWith host n k t
    | .fault .awaitingLine =>
      match host k with
      | some line => State.runWith host n (k + 1) (s.supplyLine line)
      | none => s
    | .fault _ => s
    | .refused _ => s

end Sys2Proof.Machine
end

