-- ==== Sys2Proof/Laws/Step.lean ====
section
/-! SUPPORT. What a step can do, and what the fetch reads. -/

namespace Sys2Proof.Machine

theorem step_running {s : State} (h : s.status = .running) : step s =
    match decode s.fetchBytes with
    | .error e => raise (decodeFault e) s
    | .ok (i, _) => exec i s := by
  cases s
  simp only at h
  subst h
  rfl

theorem step_ok {s : State} {i : Instr} {rest : List Byte} (h : s.status = .running)
    (hd : decode s.fetchBytes = .ok (i, rest)) : step s = exec i s := by
  rw [step_running h, hd]

theorem step_error {s : State} {e : DecodeError} (h : s.status = .running) (hd : decode s.fetchBytes = .error e) :
    step s = .next { s with status := .faulted (decodeFault e) } := by
  rw [step_running h, hd]; rfl

/-- A step that answers a next state was asked of a running machine, and either the decoder's refusal became a fault
or the decoded instruction ran. -/
theorem step_next {s t : State} (h : step s = .next t) : s.status = .running ∧
    ((∃ e, decode s.fetchBytes = .error e ∧ t = { s with status := .faulted (decodeFault e) }) ∨
      (∃ i rest, decode s.fetchBytes = .ok (i, rest) ∧ exec i s = .next t)) := by
  cases hs : s.status with
  | running =>
    refine ⟨rfl, ?_⟩
    cases hd : decode s.fetchBytes with
    | error e =>
      rw [step_error hs hd] at h
      exact .inl ⟨e, rfl, (Host.Outcome.next.inj h).symm⟩
    | ok p =>
      obtain ⟨i, rest⟩ := p
      rw [step_ok hs hd] at h
      exact .inr ⟨i, rest, rfl, h⟩
  | halted => rw [step, hs] at h; cases h
  | faulted r => rw [step, hs] at h; cases h

/-! ### A run with a host -/

section
variable {host : Nat → Option (List Byte)} {n k : Nat} {s t : State}

/-- A step of the core is an advance. -/
theorem runWith_of_next (h : step s = .next t) : s.runWith host (n + 1) k = t.runWith host n k := by
  rw [State.runWith, h]

/-- An answer to a blocked core is an advance. -/
theorem runWith_of_answer {line : List Byte} (h : step s = .fault .awaitingLine) (hk : host k = some line) :
    s.runWith host (n + 1) k = (s.supplyLine line).runWith host n (k + 1) := by
  rw [State.runWith, h]; simp only [hk]

/-- A host that never answers leaves a blocked core as it is. -/
theorem runWith_of_silence (h : step s = .fault .awaitingLine) (hk : host k = none) : s.runWith host n k = s := by
  cases n with
  | zero => rfl
  | succ n => rw [State.runWith, h]; simp only [hk]

end

/-! ### The fetch -/

@[simp] theorem length_fetchBytes (s : State) : s.fetchBytes.length = min 4 (4096 - s.ip.toNat) := by
  simp [State.fetchBytes]

/-- The fetched bytes are those of `data` from `ip` on. -/
theorem getElem_fetchBytes (s : State) (k : Nat) (h : k < s.fetchBytes.length) :
    s.fetchBytes[k] = s.data.read (s.ip.toNat + k) := by
  simp [State.fetchBytes, Memory.bytes_eq_map]

/-- With `ip` in `data`, the first fetched byte is the one at `ip`. -/
theorem fetchBytes_eq_cons {s : State} (h : s.ip.toNat ≤ 4095) :
    ∃ bs, s.fetchBytes = s.data.read s.ip.toNat :: bs := by
  obtain ⟨n, hn⟩ : ∃ n, min 4 (4096 - s.ip.toNat) = n + 1 := ⟨min 4 (4096 - s.ip.toNat) - 1, by omega⟩
  exact ⟨s.data.bytes (s.ip.toNat + 1) n, by rw [State.fetchBytes, hn, Memory.bytes]⟩

/-- With `ip` past `data`, nothing is fetched. -/
theorem fetchBytes_eq_nil {s : State} (h : 4095 < s.ip.toNat) : s.fetchBytes = [] := by
  rw [State.fetchBytes, show min 4 (4096 - s.ip.toNat) = 0 by omega, Memory.bytes]

end Sys2Proof.Machine
end

