-- ==== Sys2Proof/Machine/Assembly.lean ====
section
/-! DEFINITION. The assembly syntax of 30_encoding.md R74 and R75: the text of an instruction. No step reads it. Numbers
are written in decimal, one of the two spellings R74 allows (92_eei_decisions.md D21; log 30). -/

namespace Sys2Proof.Machine

/-- A number of at most 16 bits, in decimal. -/
def numText (n : Nat) : String := String.ofList ((decDigits 5 n).map (fun b => Char.ofNat b.toNat))

/-- `R0` to `R3`, and nothing where the selector names no register. -/
def regText (n : Nat) : Option String := if n < 4 then some ("R" ++ numText n) else none

/-- `BYTE[…]`. -/
def byteText (inner : String) : String := "BYTE[" ++ inner ++ "]"

/-- `WORD[…]`. -/
def wordText (inner : String) : String := "WORD[" ++ inner ++ "]"

/-- A mnemonic and two operands, destination first. -/
def twoText (mnemonic dst src : String) : String := mnemonic ++ " " ++ dst ++ "," ++ src

/-- A pair form: both selectors must name registers. -/
def pairText (f : String → String → String) (d r : Nibble) : Option String :=
  match regText d.toNat, regText r.toNat with
  | some dst, some src => some (f dst src)
  | _, _ => none

/-- A single form. -/
def oneText (f : String → String) (b : Byte) : Option String := (regText b.toNat).map f

/-- The assembly text of an instruction; none where a selector names no register, since such an encoding has no text
(R74, R75). -/
def assembly : Instr → Option String
  | .nop => some "NOP"
  | .movRdRs d r => pairText (twoText "MOV") d r
  | .movxRdByteAddr d addr => oneText (fun t => twoText "MOVX" t (byteText (numText addr.toNat))) d
  | .movRdWordAddr d addr => oneText (fun t => twoText "MOV" t (wordText (numText addr.toNat))) d
  | .movxRdImm8 d imm => oneText (fun t => twoText "MOVX" t (numText imm.toNat)) d
  | .movRdImm16 d imm => oneText (fun t => twoText "MOV" t (numText imm.toNat)) d
  | .movByteAddrRs r addr => oneText (fun t => twoText "MOV" (byteText (numText addr.toNat)) t) r
  | .movWordAddrRs r addr => oneText (fun t => twoText "MOV" (wordText (numText addr.toNat)) t) r
  | .movByteRdRs d r => pairText (fun dst src => twoText "MOV" (byteText dst) src) d r
  | .movxRdByteRs d r => pairText (fun dst src => twoText "MOVX" dst (byteText src)) d r
  | .jmp target => some ("JMP " ++ numText target.toNat)
  | .jz target => some ("JZ " ++ numText target.toNat)
  | .jnz target => some ("JNZ " ++ numText target.toNat)
  | .jae target => some ("JAE " ++ numText target.toNat)
  | .jbe target => some ("JBE " ++ numText target.toNat)
  | .jb target => some ("JB " ++ numText target.toNat)
  | .ja target => some ("JA " ++ numText target.toNat)
  | .addRdImm16 d imm => oneText (fun t => twoText "ADD" t (numText imm.toNat)) d
  | .addRdRs d r => pairText (twoText "ADD") d r
  | .addlRdRs d r => pairText (twoText "ADDL") d r
  | .addlRdImm8 d imm => oneText (fun t => twoText "ADDL" t (numText imm.toNat)) d
  | .subRdImm16 d imm => oneText (fun t => twoText "SUB" t (numText imm.toNat)) d
  | .subRdRs d r => pairText (twoText "SUB") d r
  | .sublRdRs d r => pairText (twoText "SUBL") d r
  | .sublRdImm8 d imm => oneText (fun t => twoText "SUBL" t (numText imm.toNat)) d
  | .xorRdRs d r => pairText (twoText "XOR") d r
  | .xorlRdRs d r => pairText (twoText "XORL") d r
  | .cmpRdRs d r => pairText (twoText "CMP") d r
  | .cmplRdRs d r => pairText (twoText "CMPL") d r
  | .pushRs r => oneText (fun t => "PUSH " ++ t) r
  | .popRd d => oneText (fun t => "POP " ++ t) d
  | .printInt => some "PRINT_INT"
  | .printStr => some "PRINT_STR"
  | .scanStr => some "SCAN_STR"
  | .halt => some "HALT"

end Sys2Proof.Machine
end

