-- ==== Sys2Proof/Tests/Slice0.lean ====
section
/-! SUPPORT. The model's own tests. Expected results are those of spec/95_test_vectors.md (named W, E, M, J, A, S, I, H
as there) and of the opcode map of 30_encoding.md R67; none is the model's own answer. The witnesses show, for each
statement with hypotheses, a state and operands that meet them. -/

namespace Sys2Proof.Tests

open Sys2Proof.Machine

/-! ## Helpers -/

/-- The state a step answers, if it answers one. -/
def nextOf : StepResult → Option State
  | .next t => some t
  | .fault _ => none
  | .refused _ => none

/-- The reset state with `bs` at address `a`, where `ip` is put, and with the registers `x`. -/
def place (a : Nat) (bs : List Byte) (x : Vector Word 4 := #v[0, 0, 0, 0]) : State :=
  { State.reset with data := Memory.writeBytes [] a bs, ip := BitVec.ofNat 16 a, x := x }

/-- `s` with `v` in `stack[255]` as the only pushed value. -/
def onTop (v : Word) (s : State) : State := { s with stack := s.stack.set 255 v, sp := 255#16 }

/-- `s` with the flags `z` and `c`. -/
def flags (z c : Bool) (s : State) : State := { s with zf := z, cf := c }

/-- What `f` shows of the state after one step. -/
def after {α : Type} (s : State) (f : State → α) : Option α := (nextOf (step s)).map f

/-- A step whose outcome shows something is a step to a next state that shows it. -/
theorem next_of_after {α : Type} {s : State} {f : State → α} {v : α} (h : after s f = some v) :
    ∃ t, step s = .next t ∧ f t = v := by
  unfold after at h
  cases hs : step s with
  | next t => rw [hs] at h; exact ⟨t, rfl, Option.some.inj h⟩
  | fault e => rw [hs] at h; cases h
  | refused e => rw [hs] at h; cases h

/-! ## Well-formedness (30_encoding.md R62, R63) -/

theorem test_wellFormed_pair_destination_refused : (Instr.movRdRs 4 0).wellFormed = false := by decide
theorem test_wellFormed_pair_source_refused : (Instr.movRdRs 0 4).wellFormed = false := by decide
theorem test_wellFormed_single_refused : (Instr.pushRs 0x10).wellFormed = false := by decide
theorem test_wellFormed_accepts : (Instr.movRdRs 3 3).wellFormed = true ∧ (Instr.pushRs 3).wellFormed = true := by decide

/-! ## Decoding: every constructor, from the bytes of 30_encoding.md R61 and R67 -/

theorem test_decode_nop : decode [0x90] = .ok (.nop, []) := rfl
theorem test_decode_movRdRs : decode [0x10, 0x12] = .ok (.movRdRs 1 2, []) := rfl
theorem test_decode_movxRdByteAddr : decode [0x12, 0x02, 0x34, 0x01] = .ok (.movxRdByteAddr 2 0x0134, []) := rfl
theorem test_decode_movRdWordAddr : decode [0x14, 0x01, 0x10, 0x0F] = .ok (.movRdWordAddr 1 0x0F10, []) := rfl
theorem test_decode_movxRdImm8 : decode [0x16, 0x03, 0x80] = .ok (.movxRdImm8 3 0x80, []) := rfl
theorem test_decode_movRdImm16 : decode [0x18, 0x02, 0xCD, 0xAB] = .ok (.movRdImm16 2 0xABCD, []) := rfl
theorem test_decode_movByteAddrRs : decode [0x1C, 0x01, 0x00, 0x02] = .ok (.movByteAddrRs 1 0x0200, []) := rfl
theorem test_decode_movWordAddrRs : decode [0x1F, 0x00, 0xFE, 0x0F] = .ok (.movWordAddrRs 0 0x0FFE, []) := rfl
theorem test_decode_movByteRdRs : decode [0x55, 0x31] = .ok (.movByteRdRs 3 1, []) := rfl
theorem test_decode_movxRdByteRs : decode [0x56, 0x21] = .ok (.movxRdByteRs 2 1, []) := rfl
theorem test_decode_jmp : decode [0xE0, 0x34, 0x12] = .ok (.jmp 0x1234, []) := rfl
theorem test_decode_jz : decode [0xE2, 0x40, 0x01] = .ok (.jz 0x0140, []) := rfl
theorem test_decode_jnz : decode [0xE3, 0x40, 0x01] = .ok (.jnz 0x0140, []) := rfl
theorem test_decode_jae : decode [0xE4, 0x40, 0x01] = .ok (.jae 0x0140, []) := rfl
theorem test_decode_jbe : decode [0xE6, 0x40, 0x01] = .ok (.jbe 0x0140, []) := rfl
theorem test_decode_jb : decode [0xE8, 0x40, 0x01] = .ok (.jb 0x0140, []) := rfl
theorem test_decode_ja : decode [0xEC, 0x40, 0x01] = .ok (.ja 0x0140, []) := rfl
theorem test_decode_addRdImm16 : decode [0xAD, 0x01, 0x34, 0x12] = .ok (.addRdImm16 1 0x1234, []) := rfl
theorem test_decode_addRdRs : decode [0xA5, 0x01] = .ok (.addRdRs 0 1, []) := rfl
theorem test_decode_addlRdRs : decode [0xA2, 0x32] = .ok (.addlRdRs 3 2, []) := rfl
theorem test_decode_addlRdImm8 : decode [0xA1, 0x02, 0x7F] = .ok (.addlRdImm8 2 0x7F, []) := rfl
theorem test_decode_subRdImm16 : decode [0x5B, 0x01, 0x05, 0x01] = .ok (.subRdImm16 1 0x0105, []) := rfl
theorem test_decode_subRdRs : decode [0x5C, 0x31] = .ok (.subRdRs 3 1, []) := rfl
theorem test_decode_sublRdRs : decode [0x5D, 0x13] = .ok (.sublRdRs 1 3, []) := rfl
theorem test_decode_sublRdImm8 : decode [0x51, 0x02, 0x10] = .ok (.sublRdImm8 2 0x10, []) := rfl
theorem test_decode_xorRdRs : decode [0xF0, 0x12] = .ok (.xorRdRs 1 2, []) := rfl
theorem test_decode_xorlRdRs : decode [0xF1, 0x12] = .ok (.xorlRdRs 1 2, []) := rfl
theorem test_decode_cmpRdRs : decode [0x70, 0x20] = .ok (.cmpRdRs 2 0, []) := rfl
theorem test_decode_cmplRdRs : decode [0x71, 0x20] = .ok (.cmplRdRs 2 0, []) := rfl
theorem test_decode_pushRs : decode [0xAF, 0x02] = .ok (.pushRs 2, []) := rfl
theorem test_decode_popRd : decode [0xAE, 0x02] = .ok (.popRd 2, []) := rfl
theorem test_decode_printInt : decode [0xC0] = .ok (.printInt, []) := rfl
theorem test_decode_printStr : decode [0xC2] = .ok (.printStr, []) := rfl
theorem test_decode_scanStr : decode [0x89] = .ok (.scanStr, []) := rfl
theorem test_decode_halt : decode [0xED] = .ok (.halt, []) := rfl

/-- The operand bytes stop where the format says; what follows is left over. -/
theorem test_decode_leaves_the_rest : decode [0xAF, 0x02, 0xAE, 0x02] = .ok (.pushRs 2, [0xAE, 0x02]) := rfl
theorem test_decode_truncated : decode [0x18, 0x00, 0x05] = .error .truncated := rfl
theorem test_decode_illegal : decode [0xFF] = .error .invalidOpcode := rfl

/-- 35 opcodes are legal and 221 are not (30_encoding.md R67, R68). -/
theorem test_illegal_count :
    ((List.range 256).filter (fun n => illegalOpcode (BitVec.ofNat 8 n))).length = 221 := by decide +kernel

/-- The opcode table's numbering: the first byte is bits 7:0. -/
theorem test_decodeTableWord : decodeTableWord 16 0x1210 = some (.movRdRs 1 2) ∧
    decodeTableWord 32 0x01000212 = some (.movxRdByteAddr 2 0x0100) ∧ decodeTableWord 8 0xFF = none := by decide
theorem test_withFetchWord : after (State.reset.withFetchWord 32 0x12340118) (fun t => (t.reg 1, t.ip)) =
    some (0x1234, 4) := by decide

/-! ## Assembly text (30_encoding.md R74, R75; 95_test_vectors.md P1 and P3) -/

theorem test_assembly : assembly (.movRdImm16 0 5) = some "MOV R0,5" ∧ assembly (.pushRs 0) = some "PUSH R0" ∧
    assembly (.movxRdByteRs 2 1) = some "MOVX R2,BYTE[R1]" ∧ assembly (.movWordAddrRs 3 4094) = some "MOV WORD[4094],R3" ∧
    assembly (.movRdRs 0 4) = none := by decide +kernel

/-! ## One step of each instruction (spec/95_test_vectors.md) -/

/-! ### Fetch and decode -/

theorem test_e3_invalid_opcode_at_the_end : after (place 0x0FFF [0xFF]) (fun t => (t.status, t.ip)) =
    some (.faulted .invalidOpcode, 0x0FFF) := by decide
theorem test_e4_operand_past_the_end : after (place 0x0FFD [0x18, 0x00, 0x05]) (fun t => (t.status, t.ip)) =
    some (.faulted .outOfBoundsAddress, 0x0FFD) := by decide
theorem test_e7_fetch_past_the_end : after (place 0x1000 []) (fun t => (t.status, t.ip)) =
    some (.faulted .outOfBoundsAddress, 0x1000) := by decide
theorem test_e8_e9_pair_nibbles : [[0x10, 0x40], [0x10, 0x04]].map (fun bs => after (place 0 bs) State.status) =
    List.replicate 2 (some (.faulted .invalidRegisterSelector)) := by decide

/-! ### Data movement -/

theorem test_m1_nop : after (place 0 [0x90]) (fun t => (t.ip, t.status)) = some (1, .running) := by decide
theorem test_m2_nop_at_the_end : after (place 0x0FFF [0x90]) (fun t => (t.ip, t.status)) =
    some (0x1000, .running) := by decide
theorem test_w1_mov : after (flags true true (place 0 [0x10, 0x12] #v[0, 0, 0x1234, 0]))
    (fun t => (t.x.toList, t.zf, t.cf, t.ip)) = some ([0, 0x1234, 0x1234, 0], true, true, 2) := by decide
theorem test_m5_movx_byte_absolute : after
    { place 0 [0x12, 0x02, 0x00, 0x01] #v[0, 0, 0xFFFF, 0] with
      data := Memory.writeBytes [(0x100, 0xAB)] 0 [0x12, 0x02, 0x00, 0x01] }
    (fun t => (t.reg 2, t.ip)) = some (0x00AB, 4) := by decide
theorem test_m8_selector_before_address : after (place 0 [0x12, 0x04, 0x00, 0x10]) State.status =
    some (.faulted .invalidRegisterSelector) := by decide
theorem test_m9_mov_word_absolute : after
    { place 0 [] with data := Memory.writeBytes [(0x10, 0x34), (0x11, 0x12)] 0 [0x14, 0x01, 0x10, 0x00] }
    (fun t => (t.reg 1, t.ip)) = some (0x1234, 4) := by decide
theorem test_m11_mov_word_past_the_end : after (place 0 [0x14, 0x01, 0xFF, 0x0F]) State.status =
    some (.faulted .outOfBoundsAddress) := by decide
theorem test_m12_movx_imm8 : after (place 0 [0x16, 0x03, 0x80] #v[0, 0, 0, 0xFFFF]) (fun t => (t.reg 3, t.ip)) =
    some (0x0080, 3) := by decide
theorem test_m13_mov_imm16 : after (place 0 [0x18, 0x02, 0xCD, 0xAB]) (fun t => (t.reg 2, t.ip)) =
    some (0xABCD, 4) := by decide
theorem test_m14_store_byte_absolute : after (place 0 [0x1C, 0x01, 0x00, 0x02] #v[0, 0x1234, 0, 0])
    (fun t => (t.data.read 0x200, t.data.read 0x201, t.ip)) = some (0x34, 0x00, 4) := by decide
theorem test_m15_store_byte_past_the_end : after (place 0 [0x1C, 0x01, 0x00, 0x10] #v[0, 0x1234, 0, 0]) State.status =
    some (.faulted .outOfBoundsAddress) := by decide
theorem test_m16_store_word_absolute : after (place 0 [0x1F, 0x00, 0xFE, 0x0F] #v[0xBEEF, 0, 0, 0])
    (fun t => (t.data.read 0xFFE, t.data.read 0xFFF, t.ip)) = some (0xEF, 0xBE, 4) := by decide
theorem test_m17_store_word_past_the_end : after (place 0 [0x1F, 0x00, 0xFF, 0x0F] #v[0xBEEF, 0, 0, 0])
    (fun t => (t.status, t.data.read 0xFFF)) = some (.faulted .outOfBoundsAddress, 0x00) := by decide
theorem test_m19_store_byte_indirect : after (place 0 [0x55, 0x01] #v[0x100, 0xAA55, 0, 0])
    (fun t => (t.data.read 0x100, t.ip)) = some (0x55, 2) := by decide
theorem test_m20_store_byte_indirect_same_register : after (place 0 [0x55, 0x00] #v[0x0FFF, 0, 0, 0])
    (fun t => (t.data.read 0xFFF, t.reg 0)) = some (0xFF, 0x0FFF) := by decide
theorem test_m23_movx_byte_indirect_same_register : after
    { place 0 [] #v[0, 0x100, 0, 0] with data := Memory.writeBytes [(0x100, 0x48)] 0 [0x56, 0x11] }
    (fun t => (t.reg 1, t.ip)) = some (0x0048, 2) := by decide
theorem test_m24_movx_byte_indirect_past_the_end : after (place 0 [0x56, 0x21] #v[0, 0xFFFF, 0x7777, 0])
    (fun t => (t.status, t.reg 2)) = some (.faulted .outOfBoundsAddress, 0x7777) := by decide

/-! ### Control transfer: vectors J1 to J6, the columns zf,cf = 0,0 0,1 1,0 1,1 -/

/-- The end `ip` of the jump `op` at 0x10 with target 0x40, for the four flag columns. -/
def jumpRow (op : Byte) : List (Option Word) :=
  [(false, false), (false, true), (true, false), (true, true)].map fun f =>
    after (flags f.1 f.2 (place 0x10 [op, 0x40, 0x00])) State.ip

theorem test_j1_jz : jumpRow 0xE2 = [some 0x13, some 0x13, some 0x40, some 0x40] := by decide
theorem test_j2_jnz : jumpRow 0xE3 = [some 0x40, some 0x40, some 0x13, some 0x13] := by decide
theorem test_j3_jae : jumpRow 0xE4 = [some 0x40, some 0x13, some 0x40, some 0x40] := by decide
theorem test_j4_jbe : jumpRow 0xE6 = [some 0x13, some 0x40, some 0x40, some 0x40] := by decide
theorem test_j5_jb : jumpRow 0xE8 = [some 0x13, some 0x40, some 0x13, some 0x13] := by decide
theorem test_j6_ja : jumpRow 0xEC = [some 0x40, some 0x13, some 0x13, some 0x13] := by decide
theorem test_j8_jmp : after (place 0 [0xE0, 0xFF, 0x0F]) State.ip = some 0x0FFF := by decide
theorem test_j9_jmp_past_the_end : after (place 0 [0xE0, 0x00, 0x10]) (fun t => (t.status, t.ip)) =
    some (.faulted .outOfBoundsAddress, 0) := by decide
theorem test_w12_jnz_not_taken_past_the_end : after (flags true false (place 0x10 [0xE3, 0x00, 0x10]))
    (fun t => (t.status, t.ip)) = some (.faulted .outOfBoundsAddress, 0x10) := by decide

/-! ### Arithmetic -/

/-- R0, `zf` and `cf` after the bytes `bs` on the registers R0 and R1, from `cf` set. -/
def alu (bs : List Byte) (r0 r1 : Word) : Option (Word × Bool × Bool) :=
  after (flags false true (place 0 bs #v[r0, r1, 0, 0])) fun t => (t.reg 0, t.zf, t.cf)

theorem test_a1_add_imm16 : alu [0xAD, 0x00, 0x01, 0x00] 0xFFFF 0 = some (0, true, true) := by decide
theorem test_a3_add_imm16_zero : alu [0xAD, 0x00, 0x00, 0x00] 7 0 = some (7, false, false) := by decide
theorem test_a5_w2_add : alu [0xA5, 0x01] 0x8000 0x8001 = some (1, false, true) ∧
    alu [0xA5, 0x01] 0x8000 0x8000 = some (0, true, true) := by decide
theorem test_a9_addl : alu [0xA2, 0x01] 0x12F0 0x3420 = some (0x1210, false, true) := by decide
theorem test_a10_addl_same_register : alu [0xA2, 0x00] 0xFF80 0 = some (0xFF00, true, true) := by decide
theorem test_a11_addl_imm8 : alu [0xA1, 0x00, 0x01] 0xABFF 0 = some (0xAB00, true, true) := by decide
theorem test_a12_addl_imm8_zero : alu [0xA1, 0x00, 0x00] 0xAB00 0 = some (0xAB00, true, false) := by decide
theorem test_a13_sub_imm16 : alu [0x5B, 0x00, 0x01, 0x00] 0 0 = some (0xFFFF, false, true) := by decide
theorem test_a14_sub_imm16_zero : alu [0x5B, 0x00, 0x05, 0x00] 5 0 = some (0, true, false) := by decide
theorem test_w3_sub : alu [0x5C, 0x01] 3 5 = some (0xFFFE, false, true) := by decide
theorem test_a16_sub : alu [0x5C, 0x01] 5 3 = some (2, false, false) := by decide
theorem test_a19_subl : alu [0x5D, 0x01] 0x1200 0x0001 = some (0x12FF, false, true) := by decide
theorem test_a20_subl_zero : alu [0x5D, 0x01] 0x12FF 0xAAFF = some (0x1200, true, false) := by decide
theorem test_a21_subl_imm8 : alu [0x51, 0x00, 0x10] 0x5510 0 = some (0x5500, true, false) := by decide
theorem test_a22_subl_imm8_borrow : alu [0x51, 0x00, 0x11] 0x5510 0 = some (0x55FF, false, true) := by decide
theorem test_a23_xor : alu [0xF0, 0x01] 0xFF00 0x0FF0 = some (0xF0F0, false, false) := by decide
theorem test_w8_xor_same_register : alu [0xF0, 0x00] 0x1234 0 = some (0, true, false) := by decide
theorem test_a24_xorl : alu [0xF1, 0x01] 0x12AA 0x34AA = some (0x1200, true, false) := by decide
theorem test_a25_xorl : alu [0xF1, 0x01] 0x1200 0x0001 = some (0x1201, false, false) := by decide
theorem test_a26_cmp_below : alu [0x70, 0x01] 3 5 = some (3, false, true) := by decide
theorem test_a28_cmp_equal : alu [0x70, 0x01] 5 5 = some (5, true, false) := by decide
theorem test_a30_cmpl_equal : alu [0x71, 0x01] 0x0105 0x0205 = some (0x0105, true, false) := by decide
theorem test_a31_cmpl_below : alu [0x71, 0x01] 0xFF01 0x0002 = some (0xFF01, false, true) := by decide
theorem test_a8_invalid_selector_keeps_flags : after (flags true true (place 0 [0xA5, 0x41]))
    (fun t => (t.status, t.zf, t.cf)) = some (.faulted .invalidRegisterSelector, true, true) := by decide

/-! ### The stack -/

theorem test_s1_push : after (place 0 [0xAF, 0x00] #v[5, 0, 0, 0]) (fun t => (t.cell 255, t.sp, t.ip)) =
    some (5, 255, 2) := by decide +kernel
theorem test_s3_s4_e11_push_faults : [[0xAF, 0x00], [0xAF, 0x04], [0xAF, 0x10]].map
    (fun bs => after { place 0 bs with sp := 0 } (fun t => (t.status, t.sp))) =
    [some (.faulted .stackOverflow, 0), some (.faulted .invalidRegisterSelector, 0),
     some (.faulted .invalidRegisterSelector, 0)] := by decide +kernel
theorem test_s5_pop : after (onTop 0x1234 (place 0 [0xAE, 0x02])) (fun t => (t.reg 2, t.sp, t.ip)) =
    some (0x1234, 256, 2) := by decide +kernel
theorem test_s6_pop_underflow : after (place 0 [0xAE, 0x02] #v[0, 0, 0x7777, 0]) (fun t => (t.status, t.reg 2)) =
    some (.faulted .stackUnderflow, 0x7777) := by decide +kernel

/-! ### Input and output -/

theorem test_i1_print_zero : after (onTop 0 (place 0 [0xC0])) (fun t => (t.output, t.sp)) =
    some ([0x30, 0x0A], 256) := by decide +kernel
theorem test_i2_print_65535 : after (onTop 65535 (place 0 [0xC0])) State.output =
    some [0x36, 0x35, 0x35, 0x33, 0x35, 0x0A] := by decide +kernel

/-- The reset state with `i` at address 0, `bs` at address `a` and the word `a` on the stack, and `inp` as input. -/
def io (i : Byte) (a : Nat) (bs inp : List Byte) : State :=
  { onTop (BitVec.ofNat 16 a) (place 0 [i]) with
    data := Memory.writeBytes (Memory.writeBytes [] 0 [i]) a bs, input := inp }

theorem test_i5_print_str : after (io 0xC2 0x100 [0x48, 0x69, 0x00] []) (fun t => (t.output, t.sp, t.ip)) =
    some ([0x48, 0x69], 256, 1) := by decide +kernel
theorem test_i8_print_str_bad_address : after (io 0xC2 0x1000 [] []) (fun t => (t.status, t.sp)) =
    some (.faulted .outOfBoundsAddress, 256) := by decide +kernel
theorem test_i10_scan_str : after (io 0x89 0x200 [0xFF, 0xFF, 0xFF] [0x61, 0x62, 0x0A, 0x63])
    (fun t => (t.data.bytes 0x200 3, t.input, t.sp)) = some ([0x61, 0x62, 0x00], [0x63], 256) := by decide +kernel
theorem test_i14_scan_str_exact_fit : after (io 0x89 0x0FFD [] [0x78, 0x79, 0x0A])
    (fun t => (t.data.bytes 0xFFD 3, t.status)) = some ([0x78, 0x79, 0x00], .running) := by decide +kernel

/-- I17 and I10: blocked while the host is silent; with its answer the line is stored. -/
theorem test_i17_scan_str_blocked : step (io 0x89 0x200 [] []) = .fault .awaitingLine := rfl
theorem test_runWith_answers : (fun t : State => (t.data.bytes 0x200 3, t.input, t.status, t.ip))
    ((io 0x89 0x200 [] []).runWith (fun _ => some [0x61, 0x62]) 2 0) = ([0x61, 0x62, 0x00], [], .running, 1) := by
  decide +kernel

/-! ### Halt -/

theorem test_h1_halt : after (place 0 [0xED]) (fun t => (t.status, t.ip)) = some (.halted, 1) := by decide
theorem test_h2_halt_at_the_end : after (place 0x0FFF [0xED]) (fun t => (t.status, t.ip)) =
    some (.halted, 0x1000) := by decide

/-! ## Witnesses: for each statement with hypotheses, values that meet them, one for each clause -/

theorem witness_EncodeOfDecode : decode [0x10, 0x33, 0xFF] = .ok (.movRdRs 3 3, [0xFF]) := rfl

theorem witness_IllegalOpcodesFault_illegal : (place 4095 [0xFF]).status = .running ∧
    (place 4095 [0xFF]).ip.toNat ≤ 4095 ∧
    illegalOpcode ((place 4095 [0xFF]).data.read (place 4095 [0xFF]).ip.toNat) = true := by decide
theorem witness_IllegalOpcodesFault_legal : (place 4095 [0x90]).status = .running ∧
    (place 4095 [0x90]).ip.toNat ≤ 4095 ∧
    illegalOpcode ((place 4095 [0x90]).data.read (place 4095 [0x90]).ip.toNat) = false ∧
    ∃ t, step (place 4095 [0x90]) = .next t := ⟨rfl, by decide, by decide, _, rfl⟩

theorem witness_InvalidSelectorFaults : (Instr.movxRdByteRs 3 4).wellFormed = false ∧
    (Instr.addRdImm16 0xFF 0).wellFormed = false := by decide

theorem witness_StepRunsDecoded : (place 4092 [0x18, 3, 0, 0]).status = .running ∧
    decode (place 4092 [0x18, 3, 0, 0]).fetchBytes = .ok (.movRdImm16 3 0, []) ∧
    (Instr.movRdImm16 3 0).wellFormed = true := ⟨rfl, rfl, rfl⟩
theorem witness_StepRunsEncodingInData : (place 4094 [0xAF, 3]).status = .running ∧
    (place 4094 [0xAF, 3]).ip.toNat + (Instr.pushRs 3).length ≤ 4096 ∧
    ∀ (k : Nat) (h : k < (encode (.pushRs 3)).length),
      (place 4094 [0xAF, 3]).data.read ((place 4094 [0xAF, 3]).ip.toNat + k) = (encode (.pushRs 3))[k] := by decide
theorem witness_FetchPastEndFaults_opcode : (place 4096 []).status = .running ∧ 4095 < (place 4096 []).ip.toNat := by
  decide
theorem witness_FetchPastEndFaults_operand : (place 4095 [0xAF]).status = .running ∧
    (place 4095 [0xAF]).ip.toNat ≤ 4095 ∧
    (place 4095 [0xAF]).data.read (place 4095 [0xAF]).ip.toNat = (Instr.pushRs 0).opcode ∧
    4096 < (place 4095 [0xAF]).ip.toNat + (Instr.pushRs 0).length := by decide
theorem witness_TerminalHasNoStep : { State.reset with status := Status.halted }.status = .halted ∧
    (State.reset.withFault .stackOverflow).status = .faulted .stackOverflow := by decide
theorem witness_RunningStepsUnlessBlocked_steps : State.reset.sp.toNat ≤ 256 ∧ State.reset.status = .running ∧
    ¬ State.reset.blocked := ⟨by decide, rfl, fun h => absurd h.2.2.1 (by decide)⟩
theorem witness_RunningStepsUnlessBlocked_blocked : (io 0x89 4095 [] []).sp.toNat ≤ 256 ∧
    (io 0x89 4095 [] []).status = .running ∧ (io 0x89 4095 [] []).blocked :=
  ⟨by decide +kernel, rfl, rfl, by decide +kernel, by decide +kernel, ⟨255, by decide +kernel, by decide +kernel⟩,
    by decide +kernel⟩

theorem witness_FaultsArePrecise_alone : ∃ t, step (place 0 [0xFF]) = .next t ∧ t.status = .faulted .invalidOpcode :=
  next_of_after (f := State.status) rfl
theorem witness_FaultsArePrecise_badAddress : ∃ t, step (io 0xC2 4096 [] []) = .next t ∧
    t.status = .faulted .outOfBoundsAddress := next_of_after (f := State.status) (by decide +kernel)
theorem witness_FaultsArePrecise_printStr : ∃ t, step (io 0xC2 4095 [0x41] []) = .next t ∧
    t.status = .faulted .unterminatedOrOversizedIO := next_of_after (f := State.status) (by decide +kernel)
theorem witness_FaultsArePrecise_scanStr : ∃ t, step (io 0x89 4095 [] [0x78, 0x0A]) = .next t ∧
    t.status = .faulted .unterminatedOrOversizedIO := next_of_after (f := State.status) (by decide +kernel)

theorem witness_OnlyHaltHalts : ∃ t, step (place 4095 [0xED]) = .next t ∧ t.status = .halted :=
  next_of_after (f := State.status) rfl

theorem witness_IpAdvancesByLength_completes : State.reset.status = .running ∧
    exec (.movRdImm16 3 7) State.reset = .next { State.reset.setReg 3 7 with ip := 4 } ∧
    ∀ r, ({ State.reset.setReg 3 7 with ip := 4 } : State).status ≠ .faulted r :=
  ⟨rfl, rfl, fun _ h => by cases h⟩
theorem witness_IpAdvancesByLength_jump : State.reset.status = .running ∧
    exec (.jmp 4095) State.reset = .next { State.reset with ip := 4095 } ∧
    ∀ r, ({ State.reset with ip := 4095 } : State).status ≠ .faulted r := ⟨rfl, rfl, fun _ h => by cases h⟩

theorem witness_LoadCopiesImage_tooLong : 4096 < (List.replicate 4097 (0x90 : Byte)).length := by
  rw [List.length_replicate]; omega
theorem witness_LoadCopiesImage_fits : (List.replicate 4096 (0x90 : Byte)).length ≤ 4096 ∧
    Memory.wf [(0, 0x55#8), (4095, 0xAA#8)] := ⟨by rw [List.length_replicate], by decide⟩

theorem witness_StepKeepsInv : (place 4095 [0x90]).Inv ∧ ∃ t, step (place 4095 [0x90]) = .next t :=
  ⟨by decide, _, rfl⟩

theorem witness_MovCopiesRegister : (3 < (4 : Nibble).toNat ∨ 3 < (0 : Nibble).toNat) ∧
    (3 < (0 : Nibble).toNat ∨ 3 < (4 : Nibble).toNat) ∧ (0 : Nibble) = RegIx.nibble 0 ∧
    (3 : Nibble) = RegIx.nibble 3 := by decide
theorem witness_MovxLoadsByteAbsolute : 3 < (4 : Byte).toNat ∧ (3 : Byte) = RegIx.byte 3 ∧
    4095 < (4096 : Word).toNat ∧ (4095 : Word).toNat ≤ 4095 := by decide
theorem witness_MovLoadsWordAbsolute : 3 < (4 : Byte).toNat ∧ (3 : Byte) = RegIx.byte 3 ∧
    4094 < (4095 : Word).toNat ∧ (4094 : Word).toNat ≤ 4094 := by decide
theorem witness_MovxLoadsImmediateByte : 3 < (4 : Byte).toNat ∧ (3 : Byte) = RegIx.byte 3 := by decide
theorem witness_MovLoadsImmediateWord : 3 < (4 : Byte).toNat ∧ (3 : Byte) = RegIx.byte 3 := by decide
theorem witness_MovStoresByteAbsolute : 3 < (4 : Byte).toNat ∧ (3 : Byte) = RegIx.byte 3 ∧
    4095 < (4096 : Word).toNat ∧ (4095 : Word).toNat ≤ 4095 ∧ State.reset.data.wf ∧ (4094 : Nat) ≠ (4095 : Word).toNat := by
  decide
theorem witness_MovStoresWordAbsolute : 3 < (4 : Byte).toNat ∧ (3 : Byte) = RegIx.byte 3 ∧
    4094 < (4095 : Word).toNat ∧ (4094 : Word).toNat ≤ 4094 ∧ State.reset.data.wf ∧
    (4093 : Nat) ≠ (4094 : Word).toNat ∧ (4093 : Nat) ≠ (4094 : Word).toNat + 1 := by decide
theorem witness_MovStoresByteIndirect : (3 < (4 : Nibble).toNat ∨ 3 < (0 : Nibble).toNat) ∧
    (2 : Nibble) = RegIx.nibble 2 ∧ (3 : Nibble) = RegIx.nibble 3 ∧
    4095 < ((place 0 [] #v[0, 0, 4096, 0]).reg 2).toNat ∧ ((place 0 [] #v[0, 0, 4095, 0]).reg 2).toNat ≤ 4095 ∧
    (place 0 [] #v[0, 0, 4095, 0]).data.wf ∧ (4094 : Nat) ≠ ((place 0 [] #v[0, 0, 4095, 0]).reg 2).toNat := by decide
theorem witness_MovxLoadsByteIndirect : (3 < (0 : Nibble).toNat ∨ 3 < (4 : Nibble).toNat) ∧
    (2 : Nibble) = RegIx.nibble 2 ∧ (3 : Nibble) = RegIx.nibble 3 ∧
    4095 < ((place 0 [] #v[0, 0, 0, 4096]).reg 3).toNat ∧ ((place 0 [] #v[0, 0, 0, 4095]).reg 3).toNat ≤ 4095 := by
  decide
theorem witness_DataMovementCompletesOrFaultsWhole : (Instr.movByteRdRs 4 0).opcode ∈ dataMovementOpcodes ∧
    (Instr.movxRdByteAddr 0 4095).opcode ∈ dataMovementOpcodes := by decide

theorem witness_JumpsFollowTheirConditions : (4095 : Word).toNat ≤ 4095 := by decide
theorem witness_JumpOutOfRangeFaults : 4095 < (4096 : Word).toNat ∧
    Instr.ja 4096 ∈ [Instr.jmp 4096, .jz 4096, .jnz 4096, .jae 4096, .jbe 4096, .jb 4096, .ja 4096] := by decide

/-- The hypotheses of ComparedJumpsOrderUnsigned hold of the state after CMP and of the state after CMPL, here with
operands that the low bytes order the other way. -/
theorem witness_ComparedJumpsOrderUnsigned : ∃ w b : State,
    exec (.cmpRdRs (RegIx.nibble 0) (RegIx.nibble 1)) (place 0 [] #v[0xFF01, 0x0002, 0, 0]) = .next w ∧
    exec (.cmplRdRs (RegIx.nibble 0) (RegIx.nibble 1)) (place 0 [] #v[0xFF01, 0x0002, 0, 0]) = .next b ∧
    (w.zf, w.cf) = (false, false) ∧ (b.zf, b.cf) = (false, true) ∧ (4095 : Word).toNat ≤ 4095 :=
  ⟨_, _, rfl, rfl, by decide, by decide, by decide⟩

theorem witness_AddWord : (3 < (4 : Nibble).toNat ∨ 3 < (0 : Nibble).toNat) ∧
    (3 < (0 : Nibble).toNat ∨ 3 < (4 : Nibble).toNat) ∧ (3 : Nibble) = RegIx.nibble 3 ∧ (0 : Nibble) = RegIx.nibble 0 ∧
    3 < (4 : Byte).toNat ∧ (3 : Byte) = RegIx.byte 3 := by
  decide
theorem witness_AddLowByte : (3 < (4 : Nibble).toNat ∨ 3 < (0 : Nibble).toNat) ∧
    (3 < (0 : Nibble).toNat ∨ 3 < (4 : Nibble).toNat) ∧ (3 : Nibble) = RegIx.nibble 3 ∧ (0 : Nibble) = RegIx.nibble 0 ∧
    3 < (4 : Byte).toNat ∧ (3 : Byte) = RegIx.byte 3 := by
  decide
theorem witness_SubWord : (3 < (4 : Nibble).toNat ∨ 3 < (0 : Nibble).toNat) ∧
    (3 < (0 : Nibble).toNat ∨ 3 < (4 : Nibble).toNat) ∧ (3 : Nibble) = RegIx.nibble 3 ∧ (0 : Nibble) = RegIx.nibble 0 ∧
    3 < (4 : Byte).toNat ∧ (3 : Byte) = RegIx.byte 3 := by
  decide
theorem witness_SubLowByte : (3 < (4 : Nibble).toNat ∨ 3 < (0 : Nibble).toNat) ∧
    (3 < (0 : Nibble).toNat ∨ 3 < (4 : Nibble).toNat) ∧ (3 : Nibble) = RegIx.nibble 3 ∧ (0 : Nibble) = RegIx.nibble 0 ∧
    3 < (4 : Byte).toNat ∧ (3 : Byte) = RegIx.byte 3 := by
  decide
theorem witness_XorWord : (3 < (4 : Nibble).toNat ∨ 3 < (0 : Nibble).toNat) ∧
    (3 < (0 : Nibble).toNat ∨ 3 < (4 : Nibble).toNat) ∧ (3 : Nibble) = RegIx.nibble 3 ∧ (0 : Nibble) = RegIx.nibble 0 ∧
    (15 : Nat) < 16 ∧ (3 : RegIx) = 3 := by
  decide
theorem witness_XorLowByte : (3 < (4 : Nibble).toNat ∨ 3 < (0 : Nibble).toNat) ∧
    (3 < (0 : Nibble).toNat ∨ 3 < (4 : Nibble).toNat) ∧ (3 : Nibble) = RegIx.nibble 3 ∧ (0 : Nibble) = RegIx.nibble 0 ∧
    (7 : Nat) < 8 ∧ 8 ≤ (8 : Nat) := by
  decide
theorem witness_CmpWord : (3 < (4 : Nibble).toNat ∨ 3 < (0 : Nibble).toNat) ∧
    (3 < (0 : Nibble).toNat ∨ 3 < (4 : Nibble).toNat) ∧ (3 : Nibble) = RegIx.nibble 3 ∧ (0 : Nibble) = RegIx.nibble 0 := by
  decide
theorem witness_CmpLowByte : (3 < (4 : Nibble).toNat ∨ 3 < (0 : Nibble).toNat) ∧
    (3 < (0 : Nibble).toNat ∨ 3 < (4 : Nibble).toNat) ∧ (3 : Nibble) = RegIx.nibble 3 ∧ (0 : Nibble) = RegIx.nibble 0 := by
  decide

theorem witness_BothFlagsOnlyFromAdd : ∃ t, exec (.addRdRs 2 2) (place 0 [] #v[0, 0, 0x8000, 0]) = .next t ∧
    t.zf = true ∧ t.cf = true ∧ (Instr.addRdRs 2 2).opcode ∈ addOpcodes := ⟨_, rfl, by decide, by decide, by decide⟩
theorem witness_BothFlagsOnlyFromAdd_before : ∃ t, exec .nop (flags true true State.reset) = .next t ∧
    t.zf = true ∧ t.cf = true ∧ (Instr.nop).opcode ∉ addOpcodes := ⟨_, rfl, rfl, rfl, by decide⟩
theorem witness_AluWritesOneRegisterAndFlags : (Instr.cmplRdRs 0 4).opcode ∈ aluOpcodes ∧
    (Instr.xorRdRs 3 2).opcode ∈ aluOpcodes ∧ (Instr.xorRdRs 3 2).destination ≠ some (2 : RegIx).val ∧
    (Instr.cmplRdRs 0 1).destination ≠ some (0 : RegIx).val := by decide

theorem witness_PushStores : 3 < (4 : Byte).toNat ∧ (3 : Byte) = RegIx.byte 3 ∧
    { State.reset with sp := 0 }.sp.toNat = 0 ∧ 0 < { State.reset with sp := 1 }.sp.toNat ∧
    { State.reset with sp := 1 }.sp.toNat ≤ 256 ∧ State.reset.sp.toNat ≤ 256 := by decide
theorem witness_PopLoads : 3 < (4 : Byte).toNat ∧ (3 : Byte) = RegIx.byte 3 ∧ State.reset.sp.toNat = 256 ∧
    (0 : Fin 256).val = { State.reset with sp := 0 }.sp.toNat ∧
    (255 : Fin 256).val = { State.reset with sp := 255 }.sp.toNat := by decide
theorem witness_PushThenPopCopies : 0 < State.reset.sp.toNat ∧ State.reset.sp.toNat ≤ 256 ∧
    0 < { State.reset with sp := 1 }.sp.toNat := by decide
theorem witness_PushesFillTheStack : (List.replicate 256 (0 : RegIx)).length ≤ State.reset.sp.toNat ∧
    State.reset.sp.toNat ≤ 256 ∧ (List.replicate 256 (0 : RegIx)).length = State.reset.sp.toNat := by
  rw [List.length_replicate]; decide

theorem witness_PrintIntEmitsDecimal : State.reset.sp.toNat = 256 ∧
    (255 : Fin 256).val = (onTop 1000 State.reset).sp.toNat := by decide
theorem witness_PrintStrEmitsString : (255 : Fin 256).val = (io 0xC2 4094 [0x41, 0x00] []).sp.toNat ∧
    ((io 0xC2 4094 [0x41, 0x00] []).cell 255).toNat ≤ 4095 ∧ (4095 : Nat) ≤ 4095 ∧
    (io 0xC2 4094 [0x41, 0x00] []).data.read 4095 = 0#8 ∧
    ∀ b < 4095, ((io 0xC2 4094 [0x41, 0x00] []).cell 255).toNat ≤ b →
      (io 0xC2 4094 [0x41, 0x00] []).data.read b ≠ 0#8 := by
  refine ⟨by decide +kernel, by decide +kernel, le_rfl, by decide +kernel, fun b h1 h2 => ?_⟩
  have hc : ((io 0xC2 4094 [0x41, 0x00] []).cell 255).toNat = 4094 := by decide +kernel
  obtain rfl : b = 4094 := by omega
  decide +kernel
theorem witness_PrintStrFaults_underflow : State.reset.sp.toNat = 256 := by decide
theorem witness_PrintStrFaults_badAddress : (255 : Fin 256).val = (onTop 4096 State.reset).sp.toNat ∧
    4095 < ((onTop 4096 State.reset).cell 255).toNat := by decide +kernel
theorem witness_PrintStrFaults_unterminated : (255 : Fin 256).val = (io 0xC2 4095 [0x41] []).sp.toNat ∧
    ((io 0xC2 4095 [0x41] []).cell 255).toNat ≤ 4095 ∧
    ∀ b, ((io 0xC2 4095 [0x41] []).cell 255).toNat ≤ b → b ≤ 4095 → (io 0xC2 4095 [0x41] []).data.read b ≠ 0#8 := by
  refine ⟨by decide +kernel, by decide +kernel, fun b h1 h2 => ?_⟩
  have hc : ((io 0xC2 4095 [0x41] []).cell 255).toNat = 4095 := by decide +kernel
  obtain rfl : b = 4095 := by omega
  decide +kernel
theorem witness_ScanStrStoresLine : (255 : Fin 256).val = (io 0x89 4093 [] [0x78, 0x79, 0x0A, 0x7A]).sp.toNat ∧
    (io 0x89 4093 [] [0x78, 0x79, 0x0A, 0x7A]).input = [0x78#8, 0x79#8] ++ 0x0A#8 :: [0x7A#8] ∧
    0x0A#8 ∉ [0x78#8, 0x79#8] ∧
    ((io 0x89 4093 [] [0x78, 0x79, 0x0A, 0x7A]).cell 255).toNat + [0x78#8, 0x79#8].length ≤ 4095 ∧
    (io 0x89 4093 [] [0x78, 0x79, 0x0A, 0x7A]).data.wf := by decide +kernel
theorem witness_ScanStrFaults_underflow : State.reset.sp.toNat = 256 := by decide
theorem witness_ScanStrFaults_badAddress : (255 : Fin 256).val = (onTop 4096 State.reset).sp.toNat ∧
    4095 < ((onTop 4096 State.reset).cell 255).toNat := by decide +kernel
theorem witness_ScanStrFaults_tooLong : (255 : Fin 256).val = (io 0x89 4095 [] [0x78, 0x0A]).sp.toNat ∧
    (io 0x89 4095 [] [0x78, 0x0A]).input = [0x78#8] ++ 0x0A#8 :: [] ∧ 0x0A#8 ∉ [0x78#8] ∧
    ((io 0x89 4095 [] [0x78, 0x0A]).cell 255).toNat ≤ 4095 ∧
    4095 < ((io 0x89 4095 [] [0x78, 0x0A]).cell 255).toNat + [0x78#8].length := by decide +kernel
theorem witness_ScanStrWaits : (255 : Fin 256).val = (io 0x89 4093 [] [0x78]).sp.toNat ∧
    ((io 0x89 4093 [] [0x78]).cell 255).toNat ≤ 4095 ∧ 0x0A#8 ∉ (io 0x89 4093 [] [0x78]).input ∧ 0x0A#8 ∉ [0x79#8] ∧
    ((io 0x89 4093 [] [0x78]).cell 255).toNat + ((io 0x89 4093 [] [0x78]).input ++ [0x79#8]).length ≤ 4095 ∧
    (io 0x89 4093 [] [0x78]).data.wf := by decide +kernel
theorem witness_OutputOnlyGrows : ∃ t, step (onTop 7 (place 0 [0xC0])) = .next t ∧
    t.output = (onTop 7 (place 0 [0xC0])).output ++ [0x37#8, 0x0A#8] :=
  next_of_after (f := State.output) (by decide +kernel)

theorem witness_OnlyListedWritersWrite_registers : ∃ t, exec (.movRdImm16 3 7) State.reset = .next t ∧
    t.x ≠ State.reset.x := ⟨_, rfl, by decide⟩
theorem witness_OnlyListedWritersWrite_flags : ∃ t, exec (.cmpRdRs 0 0) State.reset = .next t ∧
    t.zf ≠ State.reset.zf := ⟨_, rfl, by decide⟩
theorem witness_OnlyListedWritersWrite_stack : ∃ t, exec (.pushRs 0) (place 0 [] #v[5, 0, 0, 0]) = .next t ∧
    t.sp ≠ (place 0 [] #v[5, 0, 0, 0]).sp ∧ t.stack ≠ (place 0 [] #v[5, 0, 0, 0]).stack :=
  ⟨_, rfl, by decide, fun h => absurd (congrArg (fun v => v[255]) h) (by decide +kernel)⟩
theorem witness_OnlyListedWritersWrite_data : ∃ t, exec (.movByteAddrRs 0 4095) (place 0 [] #v[5, 0, 0, 0]) = .next t ∧
    t.data ≠ (place 0 [] #v[5, 0, 0, 0]).data := ⟨_, rfl, by decide⟩

theorem witness_FetchSeesStore : (place 0 [] #v[0x12ED, 0, 0, 0]).data.wf ∧ (4095 : Word).toNat ≤ 4095 ∧
    ((place 0 [] #v[0x12ED, 0, 0, 0]).reg 0).toNat % 256 = 0xED ∧
    ∃ u : State, u.data = Memory.write [] 4095 0xED ∧ u.ip = 4095 ∧ u.status = .running :=
  ⟨by decide, by decide, by decide, place 4095 [0xED], rfl, rfl, rfl⟩
theorem witness_DeadStackCellsUnobservable : (onTop 7 State.reset).agreeOnLive
      { onTop 7 State.reset with stack := (onTop 7 State.reset).stack.set 254 0xBEEF } ∧
    (onTop 7 State.reset).stack ≠ (onTop 7 State.reset).stack.set 254 0xBEEF ∧ (∃ t, step (onTop 7 State.reset) = .next t) ∧
    step { onTop 7 State.reset with status := .halted } = .fault .runHalted :=
  ⟨⟨rfl, fun k h => Vector.getElem_set_ne (by decide) k.isLt (fun e => absurd (e ▸ h) (by decide))⟩,
    fun h => absurd (congrArg (fun v => v[254]) h) (by decide +kernel), ⟨_, rfl⟩, rfl⟩
theorem witness_HostViews : State.reset.status = .running ∧
    { State.reset with status := Status.halted }.status = .halted ∧
    (State.reset.withFault .unterminatedOrOversizedIO).status = .faulted .unterminatedOrOversizedIO := by decide

end Sys2Proof.Tests
end

/-! SUPPORT. The decoder undone by the encoder: the bytes an instruction was decoded from are its encoding, so a decoded
instruction lies in `data` (30_encoding.md R69, R72). -/

namespace Sys2Proof

section
variable {n : Nat} {op : Byte} {bs rest : List Byte} {i : Instr}

/-! ### One lemma per format: opcode and operand bytes are the encoding of what the format's decoder answers -/

theorem encode_of_decodeP {mk : Nibble → Nibble → Instr} (hop : op.toNat = n)
    (hmk : ∀ d r, encode (mk d r) = encodeP (BitVec.ofNat 8 n) d r) (h : decodeP mk bs = .ok (i, rest)) :
    op :: bs = encode i ++ rest := by
  obtain ⟨b1, rfl, rfl⟩ := decodeP_ok h
  simp [hmk, encodeP, ← hop]

theorem encode_of_decodeS {mk : Byte → Instr} (hop : op.toNat = n)
    (hmk : ∀ b, encode (mk b) = [BitVec.ofNat 8 n, b]) (h : decodeS mk bs = .ok (i, rest)) :
    op :: bs = encode i ++ rest := by
  obtain ⟨b1, rfl, rfl⟩ := decodeS_ok h
  simp [hmk, ← hop]

theorem encode_of_decodeSI8 {mk : Byte → Byte → Instr} (hop : op.toNat = n)
    (hmk : ∀ b imm, encode (mk b imm) = [BitVec.ofNat 8 n, b, imm]) (h : decodeSI8 mk bs = .ok (i, rest)) :
    op :: bs = encode i ++ rest := by
  obtain ⟨b1, b2, rfl, rfl⟩ := decodeSI8_ok h
  simp [hmk, ← hop]

theorem encode_of_decodeA {mk : Word → Instr} (hop : op.toNat = n)
    (hmk : ∀ a, encode (mk a) = encodeA (BitVec.ofNat 8 n) a) (h : decodeA mk bs = .ok (i, rest)) :
    op :: bs = encode i ++ rest := by
  obtain ⟨b1, b2, rfl, rfl⟩ := decodeA_ok h
  simp [hmk, encodeA, ← hop]

theorem encode_of_decodeSW {mk : Byte → Word → Instr} (hop : op.toNat = n)
    (hmk : ∀ b w, encode (mk b w) = encodeSW (BitVec.ofNat 8 n) b w) (h : decodeSW mk bs = .ok (i, rest)) :
    op :: bs = encode i ++ rest := by
  obtain ⟨b1, b2, b3, rfl, rfl⟩ := decodeSW_ok h
  simp [hmk, encodeSW, ← hop]

/-- Format N: the opcode alone. -/
theorem encode_of_decodeN {j : Instr} (hop : op.toNat = n) (hj : encode j = [BitVec.ofNat 8 n])
    (h : (.ok (j, bs) : Decoded) = .ok (i, rest)) : op :: bs = encode i ++ rest := by
  obtain ⟨rfl, rfl⟩ := Prod.mk.inj (Except.ok.inj h)
  simp [hj, ← hop]

/-- The rows of the opcode map, in the order of `decodeOperands` (30_encoding.md R67). -/
theorem encode_of_decodeOperands (h : decodeOperands op bs = .ok (i, rest)) : op :: bs = encode i ++ rest := by
  unfold decodeOperands at h
  split at h
  next hop => exact encode_of_decodeP hop (fun _ _ => rfl) h
  next hop => exact encode_of_decodeSW hop (fun _ _ => rfl) h
  next hop => exact encode_of_decodeSW hop (fun _ _ => rfl) h
  next hop => exact encode_of_decodeSI8 hop (fun _ _ => rfl) h
  next hop => exact encode_of_decodeSW hop (fun _ _ => rfl) h
  next hop => exact encode_of_decodeSW hop (fun _ _ => rfl) h
  next hop => exact encode_of_decodeSW hop (fun _ _ => rfl) h
  next hop => exact encode_of_decodeSI8 hop (fun _ _ => rfl) h
  next hop => exact encode_of_decodeP hop (fun _ _ => rfl) h
  next hop => exact encode_of_decodeP hop (fun _ _ => rfl) h
  next hop => exact encode_of_decodeSW hop (fun _ _ => rfl) h
  next hop => exact encode_of_decodeP hop (fun _ _ => rfl) h
  next hop => exact encode_of_decodeP hop (fun _ _ => rfl) h
  next hop => exact encode_of_decodeP hop (fun _ _ => rfl) h
  next hop => exact encode_of_decodeP hop (fun _ _ => rfl) h
  next hop => exact encode_of_decodeN hop rfl h
  next hop => exact encode_of_decodeN hop rfl h
  next hop => exact encode_of_decodeSI8 hop (fun _ _ => rfl) h
  next hop => exact encode_of_decodeP hop (fun _ _ => rfl) h
  next hop => exact encode_of_decodeP hop (fun _ _ => rfl) h
  next hop => exact encode_of_decodeSW hop (fun _ _ => rfl) h
  next hop => exact encode_of_decodeS hop (fun _ => rfl) h
  next hop => exact encode_of_decodeS hop (fun _ => rfl) h
  next hop => exact encode_of_decodeN hop rfl h
  next hop => exact encode_of_decodeN hop rfl h
  next hop => exact encode_of_decodeA hop (fun _ => rfl) h
  next hop => exact encode_of_decodeA hop (fun _ => rfl) h
  next hop => exact encode_of_decodeA hop (fun _ => rfl) h
  next hop => exact encode_of_decodeA hop (fun _ => rfl) h
  next hop => exact encode_of_decodeA hop (fun _ => rfl) h
  next hop => exact encode_of_decodeA hop (fun _ => rfl) h
  next hop => exact encode_of_decodeA hop (fun _ => rfl) h
  next hop => exact encode_of_decodeN hop rfl h
  next hop => exact encode_of_decodeP hop (fun _ _ => rfl) h
  next hop => exact encode_of_decodeP hop (fun _ _ => rfl) h
  next => cases h

/-- The bytes an instruction was decoded from are its encoding (30_encoding.md R69). -/
theorem encode_of_decode (h : decode bs = .ok (i, rest)) : bs = encode i ++ rest := by
  cases bs with
  | nil => cases h
  | cons op bs => exact encode_of_decodeOperands h

end

end Sys2Proof

namespace Sys2Proof.Machine

section
variable {i : Instr} {s t : State} {rest : List Byte}

/-- An instruction that the fetch decodes ends in `data`. -/
theorem ip_add_length_le_of_decode (hip : s.ip.toNat ≤ 4096) (h : decode s.fetchBytes = .ok (i, rest)) :
    s.ip.toNat + i.length ≤ 4096 := by
  have hlen := congrArg List.length (encode_of_decode h)
  rw [length_fetchBytes, List.length_append] at hlen
  rw [Instr.length]
  omega

/-! ### What an effect does to `ip` (10_state.md R24) -/

/-- An instruction leaves `ip` with a fault, advances it by its length, or jumps into `data`. -/
theorem Effect.ip_cases (h : Effect i s t) :
    (t.ip = s.ip ∧ ∃ r, t.status = .faulted r) ∨ t.ip = s.ip + BitVec.ofNat 16 i.length ∨
      (i.opcode ∈ jumpOpcodes ∧ t.ip.toNat ≤ 4095) := by
  cases h with
  | fault | badAddress | unterminated | oversized => exact .inl ⟨rfl, _, rfl⟩
  | jumped a ha hi => exact .inr (.inr ⟨hi, ha⟩)
  | load | store | fellThrough | alu | compared => exact .inr (.inl rfl)
  | nop hi | pushed _ hi | popped _ hi | scanned _ _ _ hi | halts hi => exact .inr (.inl (hi ▸ rfl))
  | printed _ hi => rcases hi with rfl | rfl <;> exact .inr (.inl rfl)

/-! ### The instructions that write a state element (10_state.md R35) -/

theorem Effect.mem_registerWriters (h : Effect i s t) (hx : t.x ≠ s.x) : i.opcode ∈ registerWriters := by
  cases h with
  | load _ _ _ hw => exact hw
  | alu _ _ _ _ hi => exact List.mem_append_right _ hi
  | popped _ hi => exact hi ▸ mem_opcodes rfl
  | _ => exact absurd rfl hx

theorem Effect.mem_aluOpcodes (h : Effect i s t) (hf : t.zf ≠ s.zf ∨ t.cf ≠ s.cf) : i.opcode ∈ aluOpcodes := by
  cases h with
  | alu _ _ _ _ hi => exact List.mem_append_left _ hi
  | compared _ _ hi => exact hi
  | _ => exact hf.elim (absurd rfl) (absurd rfl)

theorem Effect.mem_spWriters (h : Effect i s t) (hsp : t.sp ≠ s.sp) : i.opcode ∈ spWriters := by
  cases h with
  | pushed _ hi | popped _ hi | unterminated _ hi | oversized _ _ _ hi | scanned _ _ _ hi => exact hi ▸ mem_opcodes rfl
  | printed _ hi | badAddress hi => rcases hi with rfl | rfl <;> exact mem_opcodes rfl
  | _ => exact absurd rfl hsp

theorem Effect.opcode_eq_push (h : Effect i s t) (hst : t.stack ≠ s.stack) : i.opcode = 0xAF#8 := by
  cases h with
  | pushed _ hi => exact hi ▸ rfl
  | _ => exact absurd rfl hst

theorem Effect.mem_dataWriters (h : Effect i s t) (hd : t.data ≠ s.data) : i.opcode ∈ dataWriters := by
  cases h with
  | store _ _ _ hw => exact hw
  | oversized _ _ _ hi | scanned _ _ _ hi => exact hi ▸ mem_opcodes rfl
  | _ => exact absurd rfl hd

/-! ### What an effect keeps: the three parts of the invariant -/

/-- Every write to `data` keeps the canonical form. -/
theorem Effect.wf_data (h : Effect i s t) (hs : s.data.wf) : t.data.wf := by
  cases h with
  | store _ hm | oversized _ _ _ _ _ _ _ hm | scanned _ _ _ _ _ _ _ hm => exact hm hs
  | _ => exact hs

/-- Only an `sp` below 256 is raised, and only an `sp` above 0 is lowered (10_state.md R29). -/
theorem Effect.sp_le (h : Effect i s t) (hs : s.sp.toNat ≤ 256) : t.sp.toNat ≤ 256 := by
  have raised (hb : s.sp.toNat < 256) : (s.sp + 1#16).toNat ≤ 256 := by bv_omega
  cases h with
  | pushed _ _ h0 => show (s.sp - 1#16).toNat ≤ 256; bv_omega
  | popped _ _ hb | printed _ _ hb | badAddress _ hb | unterminated _ _ hb | oversized _ _ _ _ hb
  | scanned _ _ _ _ hb => exact raised hb
  | _ => exact hs

/-- An instruction that ends in `data` leaves `ip` at most just past it (10_state.md R24). -/
theorem Effect.ip_le (h : Effect i s t) (hs : s.ip.toNat ≤ 4096) (hlen : s.ip.toNat + i.length ≤ 4096) :
    t.ip.toNat ≤ 4096 := by
  rcases h.ip_cases with ⟨e, -⟩ | e | ⟨-, hb⟩
  · rwa [e]
  · rw [e, BitVec.toNat_add, BitVec.toNat_ofNat]; omega
  · omega

/-- An instruction that ends in `data` keeps the invariant. -/
theorem Effect.inv (h : Effect i s t) (hs : s.Inv) (hlen : s.ip.toNat + i.length ≤ 4096) : t.Inv :=
  have ⟨hd, hsp, hip⟩ := hs
  ⟨h.wf_data hd, h.sp_le hsp, h.ip_le hip hlen⟩

end

/-- Settles O17: a fault of the fetch changes `status` alone, and a decoded instruction ends in `data`. -/
theorem stepKeepsInv : Obligations.StepKeepsInv := by
  intro s t hs h
  obtain ⟨-, ⟨e, -, rfl⟩ | ⟨i, rest, hdec, hexec⟩⟩ := step_next h
  · exact hs
  · have ⟨_, _, hip⟩ := hs
    exact (exec_effect hexec).inv hs (ip_add_length_le_of_decode hip hdec)

/-- Settles O14: of the three things an instruction does to `ip`, the first is a fault's. -/
theorem ipAdvancesByLength : Obligations.IpAdvancesByLength := by
  intro i s t _ h hnf
  rcases (exec_effect h).ip_cases with ⟨-, r, hr⟩ | hip
  · exact absurd hr (hnf r)
  · exact hip

/-- Settles O57: the effect of an instruction tells, element by element, which opcode it needs. -/
theorem onlyListedWritersWrite : Obligations.OnlyListedWritersWrite := by
  intro i s t h
  have he := exec_effect h
  exact ⟨he.mem_registerWriters, he.mem_aluOpcodes, he.mem_spWriters, he.opcode_eq_push, he.mem_dataWriters⟩

/-! ### The start of a run (10_state.md R34, 70_reset_and_hazards.md R240 to R243) -/

@[simp] theorem reset_reg (i : RegIx) : State.reset.reg i = 0#16 := by simp [State.reg, State.reset]

theorem load_tooLong {image : List Byte} (h : 4096 < image.length) (initial : Memory) (input : List Byte) :
    State.load image initial input = none := if_neg (Nat.not_le_of_lt h)

theorem load_fits {image : List Byte} (h : image.length ≤ 4096) (initial : Memory) (input : List Byte) :
    State.load image initial input =
      some { State.reset with data := initial.writeBytes 0 image, input := input } := if_pos h

/-- Settles O15, field by field. -/
theorem resetValues : Obligations.ResetValues := ⟨reset_reg, rfl, rfl, rfl, rfl, rfl⟩

/-- Settles O18: the empty memory is canonical, `sp` is 256 and `ip` is 0. -/
theorem resetHasInv : Obligations.ResetHasInv := ⟨Memory.wf_nil, by decide, by decide⟩

/-- Settles O16: the fields but `data` and `input` are those of the reset state, and `data` is `initial` with the image
written from address 0. -/
theorem loadCopiesImage : Obligations.LoadCopiesImage := by
  refine fun image initial input => ⟨fun hlong => load_tooLong hlong _ _, fun hfits hwf => ?_⟩
  have hlen : 0 + image.length ≤ 4096 := by omega
  obtain ⟨hreg, hzf, hcf, hip, hsp, hstatus⟩ := resetValues
  refine ⟨_, load_fits hfits _ _, hreg, hzf, hcf, hip, hsp, hstatus, Memory.wf_writeBytes hwf image hlen,
    fun a ha => ?_, fun a ha => ?_, rfl⟩
  · have := Memory.read_writeBytes_inside hwf image hlen a ha
    rwa [Nat.zero_add] at this
  · exact Memory.read_writeBytes_of_outside initial image (.inr (by omega))

/-! ### The host's views (10_state.md R28, 60_exceptions.md R202, R221) -/

/-- The FLAGS view as a number. -/
theorem toNat_flagsView (s : State) : s.flagsView.toNat = s.zf.toNat + 2 * s.cf.toNat := by
  unfold State.flagsView
  cases s.zf <;> cases s.cf <;> rfl

/-- The two low bits of a byte, as a number. -/
theorem getLsbD_zero_add_two_mul_one (v : Byte) : (v.getLsbD 0).toNat + 2 * (v.getLsbD 1).toNat = v.toNat % 4 := by
  simp only [BitVec.getLsbD, Nat.toNat_testBit]
  omega

theorem statusView_of_running {s : State} (h : s.status = .running) : s.statusView = (0, none) := by
  simp [State.statusView, h, Status.code]

theorem statusView_of_halted {s : State} (h : s.status = .halted) : s.statusView = (1, none) := by
  simp [State.statusView, h, Status.code]

theorem statusView_of_faulted {s : State} {r : FaultReason} (h : s.status = .faulted r) :
    s.statusView = (2, some r.code) := by
  simp [State.statusView, h, Status.code]

/-- Settles O60: the FLAGS view is a number of the two flags, and the status view has one equation per status. -/
theorem hostViews : Obligations.HostViews := by
  refine ⟨fun s => ⟨toNat_flagsView s, fun v => ?_⟩,
    fun s => ⟨statusView_of_running, statusView_of_halted, fun _ => statusView_of_faulted⟩, rfl⟩
  rw [toNat_flagsView]
  exact getLsbD_zero_add_two_mul_one v

end Sys2Proof.Machine

/-! SUPPORT. The stack as it fills, and the fetch of a stored byte (20_memory.md R51, R57). -/

namespace Sys2Proof.Machine

section
variable {s : State}

/-! ### PUSH (43_stack.md R160) -/

/-- Writing `stack[n]` changes the cell `n` alone. -/
theorem cell_set_stack {n : Nat} (hn : n < 256) (v : Word) (k : Fin 256) :
    (s.stack.set n v)[k] = if k.val = n then v else s.cell k := by
  simp only [State.cell, Fin.getElem_fin, Vector.getElem_set, eq_comm]

/-- A PUSH on a stack that is not full completes: the cell just below the old `sp` holds the register. -/
theorem exec_pushRs_of_pos (h0 : 0 < s.sp.toNat) (h : s.sp.toNat ≤ 256) (i : RegIx) : ∃ t,
    exec (.pushRs i.byte) s = .next t ∧
    (∀ k : Fin 256, t.cell k = if k.val + 1 = s.sp.toNat then s.reg i else s.cell k) ∧
    t = { s with stack := t.stack, sp := s.sp - 1#16, ip := s.ip + 2#16 } := by
  have hn : s.sp.toNat - 1 < 256 := by omega
  refine ⟨_, by rw [exec, execPushRs, selOne_byte, orRaise_ok, push_of_pos hn h0, orRaise_ok, complete],
    fun k => ?_, rfl⟩
  rw [State.cell, cell_set_stack hn]
  exact if_congr (by omega) rfl rfl

/-- A PUSH on a full stack overflows. -/
theorem exec_pushRs_of_full (h : s.sp.toNat = 0) (i : RegIx) :
    exec (.pushRs i.byte) s = .next (s.withFault .stackOverflow) := by
  rw [exec, execPushRs, selOne_byte, orRaise_ok, push_of_full h, orRaise_raised, State.withFault]

/-- An instruction that completes, then the rest of the list. -/
theorem execAll_cons_of_next {i : Instr} {t : State} (h : exec i s = .next t) (is : List Instr) :
    execAll (i :: is) s = execAll is t := by
  rw [execAll, h]

/-- Pushes that fit complete and store their registers downwards from `sp`. The induction needs the last clause too:
a later push keeps what an earlier one stored. -/
theorem execAll_pushes (rs : List RegIx) (s : State) (hfit : rs.length ≤ s.sp.toNat) (hsp : s.sp.toNat ≤ 256) : ∃ t,
    execAll (rs.map fun i => .pushRs i.byte) s = .next t ∧ t.sp.toNat = s.sp.toNat - rs.length ∧
    (∀ (n : Nat) (h : n < rs.length) (k : Fin 256), k.val + n + 1 = s.sp.toNat → t.cell k = s.reg rs[n]) ∧
    (∀ k : Fin 256, s.sp.toNat ≤ k.val → t.cell k = s.cell k) := by
  induction rs generalizing s with
  | nil => exact ⟨s, rfl, rfl, fun n h => absurd h (Nat.not_lt_zero n), fun _ _ => rfl⟩
  | cons i rs ih =>
    rw [List.length_cons] at hfit
    obtain ⟨u, hfirst, hcell, hu⟩ := exec_pushRs_of_pos (by omega) hsp i
    have hreg (j : RegIx) : u.reg j = s.reg j := by rw [hu]; rfl
    have husp : u.sp.toNat = s.sp.toNat - 1 := by rw [congrArg State.sp hu]; bv_omega
    obtain ⟨t, hrest, htsp, hpushed, hkept⟩ := ih u (by omega) (by omega)
    refine ⟨t, (execAll_cons_of_next hfirst _).trans hrest, ?_, fun n h k hk => ?_, fun k hk => ?_⟩
    · rw [htsp, husp, List.length_cons]; omega
    · cases n with
      | zero => rw [hkept k (by omega), hcell, if_pos (by omega), List.getElem_cons_zero]
      | succ n =>
        rw [List.getElem_cons_succ, ← hreg]
        exact hpushed n (Nat.lt_of_succ_lt_succ h) k (by omega)
    · rw [hkept k (by omega), hcell, if_neg (by omega)]

/-! ### A HALT byte in `data` (20_memory.md R57, 45_halt.md R190) -/

/-- MOV BYTE[addr],Rs with an address in `data` completes. -/
theorem exec_movByteAddrRs_inRange {addr : Word} (h : addr.toNat ≤ 4095) (i : RegIx) :
    exec (.movByteAddrRs i.byte addr) s = .next
      { s with data := s.data.write addr.toNat (lo8 (s.reg i)), ip := s.ip + 4#16 } := by
  rw [exec, execMovByteAddrRs, selOne_byte, orRaise_ok, memWrite1_inRange h, orRaise_ok, complete_next]

/-- A running core with the byte 0xED at `ip` halts. -/
theorem step_of_halt_byte (hrun : s.status = .running) (hip : s.ip.toNat ≤ 4095)
    (hbyte : s.data.read s.ip.toNat = 0xED#8) :
    step s = .next { s with ip := s.ip + 1#16, status := .halted } := by
  obtain ⟨rest, hfetch⟩ := fetchBytes_eq_cons hip
  have hdec : decode s.fetchBytes = .ok (.halt, rest) := by rw [hfetch, hbyte]; rfl
  rw [step_ok hrun hdec, exec, execHalt, haltAt_next]

end

/-- Settles O48: the pushes that fit, and the overflow on the full stack they leave. -/
theorem pushesFillTheStack : Obligations.PushesFillTheStack := by
  intro rs s hfit hsp
  obtain ⟨t, hrun, htsp, hpushed, -⟩ := execAll_pushes rs s hfit hsp
  exact ⟨t, hrun, htsp, hpushed, fun hfull => exec_pushRs_of_full (by omega)⟩

/-- Settles O58: canonical `data` reads back the byte just stored, and a fetch reads `data`. -/
theorem fetchSeesStore : Obligations.FetchSeesStore := by
  intro i addr s hwf haddr hlow
  refine ⟨_, exec_movByteAddrRs_inRange haddr i, ?_⟩
  rintro u hdata rfl hrun
  have hbyte : lo8 (s.reg i) = 0xED#8 := BitVec.eq_of_toNat_eq (by rw [toNat_lo8, hlow]; rfl)
  refine step_of_halt_byte hrun haddr ?_
  rw [hdata, hbyte]
  exact Memory.read_write_self hwf _ _

end Sys2Proof.Machine

/-! SUPPORT. The encoder undone by the decoder, which opcode bytes the decoder knows, and how many operand bytes it asks
for (30_encoding.md R61, R67, R68, R72). -/

namespace Sys2Proof

/-- The shape of an encoding, for every instruction. -/
theorem encodingShape (i : Instr) : Laws.EncodingShape.Statement i := by
  cases i with
  | nop => exact Laws.EncodingShape.nop
  | movRdRs => exact Laws.EncodingShape.movRdRs ..
  | movxRdByteAddr => exact Laws.EncodingShape.movxRdByteAddr ..
  | movRdWordAddr => exact Laws.EncodingShape.movRdWordAddr ..
  | movxRdImm8 => exact Laws.EncodingShape.movxRdImm8 ..
  | movRdImm16 => exact Laws.EncodingShape.movRdImm16 ..
  | movByteAddrRs => exact Laws.EncodingShape.movByteAddrRs ..
  | movWordAddrRs => exact Laws.EncodingShape.movWordAddrRs ..
  | movByteRdRs => exact Laws.EncodingShape.movByteRdRs ..
  | movxRdByteRs => exact Laws.EncodingShape.movxRdByteRs ..
  | jmp => exact Laws.EncodingShape.jmp ..
  | jz => exact Laws.EncodingShape.jz ..
  | jnz => exact Laws.EncodingShape.jnz ..
  | jae => exact Laws.EncodingShape.jae ..
  | jbe => exact Laws.EncodingShape.jbe ..
  | jb => exact Laws.EncodingShape.jb ..
  | ja => exact Laws.EncodingShape.ja ..
  | addRdImm16 => exact Laws.EncodingShape.addRdImm16 ..
  | addRdRs => exact Laws.EncodingShape.addRdRs ..
  | addlRdRs => exact Laws.EncodingShape.addlRdRs ..
  | addlRdImm8 => exact Laws.EncodingShape.addlRdImm8 ..
  | subRdImm16 => exact Laws.EncodingShape.subRdImm16 ..
  | subRdRs => exact Laws.EncodingShape.subRdRs ..
  | sublRdRs => exact Laws.EncodingShape.sublRdRs ..
  | sublRdImm8 => exact Laws.EncodingShape.sublRdImm8 ..
  | xorRdRs => exact Laws.EncodingShape.xorRdRs ..
  | xorlRdRs => exact Laws.EncodingShape.xorlRdRs ..
  | cmpRdRs => exact Laws.EncodingShape.cmpRdRs ..
  | cmplRdRs => exact Laws.EncodingShape.cmplRdRs ..
  | pushRs => exact Laws.EncodingShape.pushRs ..
  | popRd => exact Laws.EncodingShape.popRd ..
  | printInt => exact Laws.EncodingShape.printInt
  | printStr => exact Laws.EncodingShape.printStr
  | scanStr => exact Laws.EncodingShape.scanStr
  | halt => exact Laws.EncodingShape.halt

theorem illegalOpcode_opcode (i : Instr) : illegalOpcode i.opcode = false := by
  obtain ⟨hlegal, -⟩ := encodingShape i
  exact hlegal

theorem length_encode_le (i : Instr) : (encode i).length ≤ 4 := by
  obtain ⟨-, -, -, hle⟩ := encodingShape i
  exact hle

/-! ### The operand bytes of a format read back (30_encoding.md R62, R65, R66) -/

theorem decodeP_pairByte (mk : Nibble → Nibble → Instr) (d r : Nibble) (rest : List Byte) :
    decodeP mk (pairByte d r :: rest) = .ok (mk d r, rest) := by
  rw [decodeP, hiNibble_pairByte, loNibble_pairByte]

theorem decodeA_bytes (mk : Word → Instr) (a : Word) (rest : List Byte) :
    decodeA mk (loByte a :: hiByte a :: rest) = .ok (mk a, rest) := by
  rw [decodeA, wordOf_bytes]

theorem decodeSW_bytes (mk : Byte → Word → Instr) (b : Byte) (w : Word) (rest : List Byte) :
    decodeSW mk (b :: loByte w :: hiByte w :: rest) = .ok (mk b w, rest) := by
  rw [decodeSW, wordOf_bytes]

/-- The rows of the opcode map, by their formats. In format N and where every operand is a byte, nothing is to be read
back. -/
theorem decode_encode (i : Instr) (rest : List Byte) : decode (encode i ++ rest) = .ok (i, rest) := by
  cases i with
  | movRdRs d r | movByteRdRs d r | movxRdByteRs d r | addRdRs d r | addlRdRs d r | subRdRs d r | sublRdRs d r
  | xorRdRs d r | xorlRdRs d r | cmpRdRs d r | cmplRdRs d r => exact decodeP_pairByte _ d r rest
  | jmp a | jz a | jnz a | jae a | jbe a | jb a | ja a => exact decodeA_bytes _ a rest
  | movxRdByteAddr b w | movRdWordAddr b w | movRdImm16 b w | movByteAddrRs b w | movWordAddrRs b w
  | addRdImm16 b w | subRdImm16 b w => exact decodeSW_bytes _ b w rest
  | movxRdImm8 | addlRdImm8 | sublRdImm8 | pushRs | popRd => rfl
  | nop | printInt | printStr | scanStr | halt => rfl

/-! ### How many operand bytes the decoder asks for (30_encoding.md R72) -/

/-- The decoder `dec` of operand bytes refuses fewer than `n` bytes as truncated and reads an instruction from `n` bytes
or more. -/
def AsksFor (n : Nat) (dec : List Byte → Decoded) : Prop :=
  ∀ bs, (bs.length < n → dec bs = .error .truncated) ∧ (n ≤ bs.length → ∃ p, dec bs = .ok p)

theorem asksFor_decodeP (mk : Nibble → Nibble → Instr) : AsksFor 1 (decodeP mk)
  | [] => ⟨fun _ => rfl, nofun⟩
  | _ :: _ => ⟨fun h => absurd h (Nat.not_lt_of_le (Nat.le_add_left 1 _)), fun _ => ⟨_, rfl⟩⟩

theorem asksFor_decodeS (mk : Byte → Instr) : AsksFor 1 (decodeS mk)
  | [] => ⟨fun _ => rfl, nofun⟩
  | _ :: _ => ⟨fun h => absurd h (Nat.not_lt_of_le (Nat.le_add_left 1 _)), fun _ => ⟨_, rfl⟩⟩

theorem asksFor_decodeSI8 (mk : Byte → Byte → Instr) : AsksFor 2 (decodeSI8 mk)
  | [] | [_] => ⟨fun _ => rfl, fun h => by simp at h⟩
  | _ :: _ :: _ => ⟨fun h => absurd h (Nat.not_lt_of_le (Nat.le_add_left 2 _)), fun _ => ⟨_, rfl⟩⟩

theorem asksFor_decodeA (mk : Word → Instr) : AsksFor 2 (decodeA mk)
  | [] | [_] => ⟨fun _ => rfl, fun h => by simp at h⟩
  | _ :: _ :: _ => ⟨fun h => absurd h (Nat.not_lt_of_le (Nat.le_add_left 2 _)), fun _ => ⟨_, rfl⟩⟩

theorem asksFor_decodeSW (mk : Byte → Word → Instr) : AsksFor 3 (decodeSW mk)
  | [] | [_] | [_, _] => ⟨fun _ => rfl, fun h => by simp at h⟩
  | _ :: _ :: _ :: _ => ⟨fun h => absurd h (Nat.not_lt_of_le (Nat.le_add_left 3 _)), fun _ => ⟨_, rfl⟩⟩

theorem asksFor_zero (i : Instr) : AsksFor 0 fun bs => .ok (i, bs) :=
  fun _ => ⟨nofun, fun _ => ⟨_, rfl⟩⟩

/-- After the opcode of `i` the decoder asks for the bytes that `i` has after its opcode. -/
theorem asksFor_decodeOperands (i : Instr) : AsksFor (i.length - 1) (decodeOperands i.opcode) := by
  cases i with
  | movRdRs | movByteRdRs | movxRdByteRs | addRdRs | addlRdRs | subRdRs | sublRdRs | xorRdRs | xorlRdRs | cmpRdRs
  | cmplRdRs => exact asksFor_decodeP _
  | pushRs | popRd => exact asksFor_decodeS _
  | movxRdImm8 | addlRdImm8 | sublRdImm8 => exact asksFor_decodeSI8 _
  | jmp | jz | jnz | jae | jbe | jb | ja => exact asksFor_decodeA _
  | movxRdByteAddr | movRdWordAddr | movRdImm16 | movByteAddrRs | movWordAddrRs | addRdImm16 | subRdImm16 =>
    exact asksFor_decodeSW _
  | nop | printInt | printStr | scanStr | halt => exact asksFor_zero _

theorem AsksFor.ne_invalidOpcode {n : Nat} {dec : List Byte → Decoded} (h : AsksFor n dec) (bs : List Byte) :
    dec bs ≠ .error .invalidOpcode := by
  obtain ⟨hshort, hlong⟩ := h bs
  rcases Nat.lt_or_ge bs.length n with hn | hn
  · rw [hshort hn]; nofun
  · obtain ⟨p, hp⟩ := hlong hn
    rw [hp]; nofun

/-! ### The legal and the illegal opcodes (30_encoding.md R68) -/

/-- The ranges of R68 against the opcode map, byte by byte: operand bytes are there, so only the opcode can be
refused. -/
theorem isOk_decode_eq_not_illegalOpcode : ∀ op : Byte, (decode [op, 0, 0, 0]).isOk = !illegalOpcode op := by
  decide

/-- A byte outside the ranges of R68 is the opcode of an instruction. -/
theorem exists_opcode_eq {op : Byte} (h : illegalOpcode op = false) : ∃ i : Instr, i.opcode = op := by
  have hok : (decode [op, 0, 0, 0]).isOk = true := by rw [isOk_decode_eq_not_illegalOpcode, h]; rfl
  cases hdec : decode [op, 0, 0, 0] with
  | error e => rw [hdec] at hok; cases hok
  | ok p =>
    obtain ⟨i, rest⟩ := p
    obtain ⟨-, hhead, -⟩ := encodingShape i
    have hbytes := congrArg List.head? (encode_of_decode hdec)
    rw [List.head?_append, hhead] at hbytes
    exact ⟨i, (Option.some.inj hbytes).symm⟩

theorem decodeOperands_of_illegal {op : Byte} (h : illegalOpcode op = true) (bs : List Byte) :
    decodeOperands op bs = .error .invalidOpcode := by
  unfold decodeOperands
  split
  case h_36 => rfl
  all_goals
    next hrow => rw [illegalOpcode, hrow] at h; cases h

theorem decodeOperands_of_legal {op : Byte} (h : illegalOpcode op = false) (bs : List Byte) :
    decodeOperands op bs ≠ .error .invalidOpcode := by
  obtain ⟨i, rfl⟩ := exists_opcode_eq h
  exact (asksFor_decodeOperands i).ne_invalidOpcode bs

end Sys2Proof

namespace Sys2Proof.Machine

section
variable {i : Instr} {s t : State}

/-! ### Instructions that do not complete -/

theorem orRaise_selOne_of_invalid {b : Byte} (h : oneOk b = false) (k : RegIx → StepResult) :
    orRaise (selOne b) s k = .next (s.withFault .invalidRegisterSelector) := by
  rw [selOne_invalid h, orRaise_raised, State.withFault]

theorem orRaise_selPair_of_invalid {d r : Nibble} (h : pairOk d r = false) (k : RegIx × RegIx → StepResult) :
    orRaise (selPair d r) s k = .next (s.withFault .invalidRegisterSelector) := by
  rw [selPair_invalid h, orRaise_raised, State.withFault]

/-- The selector is the first check of every instruction that has one (60_exceptions.md R204). -/
theorem exec_of_not_wellFormed (h : i.wellFormed = false) :
    exec i s = .next (s.withFault .invalidRegisterSelector) := by
  cases i with
  | movRdRs | movByteRdRs | movxRdByteRs | addRdRs | addlRdRs | subRdRs | sublRdRs | xorRdRs | xorlRdRs | cmpRdRs
  | cmplRdRs => exact orRaise_selPair_of_invalid h _
  | movxRdByteAddr | movRdWordAddr | movxRdImm8 | movRdImm16 | movByteAddrRs | movWordAddrRs | addRdImm16 | addlRdImm8
  | subRdImm16 | sublRdImm8 | pushRs | popRd => exact orRaise_selOne_of_invalid h _
  | nop | jmp | jz | jnz | jae | jbe | jb | ja | printInt | printStr | scanStr | halt => cases h

/-- No instruction raises InvalidOpcode: that fault is the fetch's (60_exceptions.md R202). -/
theorem Effect.status_ne_invalidOpcode (h : Effect i s t) (hrun : s.status = .running) :
    t.status ≠ .faulted .invalidOpcode := by
  cases h with
  | fault r hr => obtain ⟨hne, -⟩ := hr; exact fun heq => hne (Status.faulted.inj heq)
  | badAddress | unterminated | oversized | halts => nofun
  | _ => exact hrun ▸ nofun

/-! ### The fetch-decode step (30_encoding.md R72) -/

/-- With `ip` in `data`, the byte at `ip` is decoded as the opcode. -/
theorem decode_fetchBytes (h : s.ip.toNat ≤ 4095) : ∃ bs : List Byte, bs.length + 1 = min 4 (4096 - s.ip.toNat) ∧
    decode s.fetchBytes = decodeOperands (s.data.read s.ip.toNat) bs := by
  obtain ⟨bs, hbs⟩ := fetchBytes_eq_cons h
  have hlen := length_fetchBytes s
  rw [hbs] at hlen
  exact ⟨bs, hlen, by rw [hbs, decode]⟩

/-- An encoding that lies in `data` at `ip` is at the head of the fetched bytes. -/
theorem encode_prefix_fetchBytes (hfit : s.ip.toNat + i.length ≤ 4096)
    (hdata : ∀ (k : Nat) (h : k < (encode i).length), s.data.read (s.ip.toNat + k) = (encode i)[k]) :
    encode i <+: s.fetchBytes := by
  have hle : (encode i).length ≤ s.fetchBytes.length := by
    have := length_encode_le i
    rw [Instr.length] at hfit
    rw [length_fetchBytes]; omega
  refine List.prefix_iff_getElem.mpr ⟨hle, fun k hk => ?_⟩
  rw [getElem_fetchBytes, hdata k hk]

/-- A running core that is short of instruction bytes faults with OutOfBoundsAddress. -/
theorem step_of_truncated (hrun : s.status = .running) (h : decode s.fetchBytes = .error .truncated) :
    step s = .next (s.withFault .outOfBoundsAddress) := by
  rw [step_error hrun h, decodeFault, State.withFault]

end

/-- Settles O1. -/
theorem decodeOfEncode : Obligations.DecodeOfEncode := decode_encode

/-- Settles O2. -/
theorem encodeOfDecode : Obligations.EncodeOfDecode := fun _ _ _ => encode_of_decode

/-- Settles O3, by running the decoder on each word. -/
theorem specWordsDecode : Obligations.SpecWordsDecode := ⟨rfl, rfl, rfl, rfl, rfl, rfl, rfl, rfl⟩

/-- Settles O4: the decoder refuses the illegal opcodes and no others, and no instruction raises InvalidOpcode. -/
theorem illegalOpcodesFault : Obligations.IllegalOpcodesFault := by
  intro s hrun hip
  obtain ⟨bs, -, hdec⟩ := decode_fetchBytes hip
  refine ⟨fun hillegal => ?_, fun hlegal t hstep => ?_⟩
  · rw [decodeOperands_of_illegal hillegal] at hdec
    exact ⟨_, step_error hrun hdec, rfl⟩
  · obtain ⟨-, ⟨e, he, rfl⟩ | ⟨i, rest, -, hexec⟩⟩ := step_next hstep
    · cases e with
      | invalidOpcode => exact absurd (hdec.symm.trans he) (decodeOperands_of_legal hlegal bs)
      | truncated => nofun
    · exact (exec_effect hexec).status_ne_invalidOpcode hrun

/-- Settles O5. -/
theorem invalidSelectorFaults : Obligations.InvalidSelectorFaults := fun _ _ => exec_of_not_wellFormed

/-- Settles O6: a selector check is the instruction's own, so the step needs no well-formed instruction. -/
theorem stepRunsDecoded : Obligations.StepRunsDecoded := fun _ _ _ hrun hdec _ => step_ok hrun hdec

/-- Settles O7: the fetched bytes begin with the encoding, which decodes to the instruction. -/
theorem stepRunsEncodingInData : Obligations.StepRunsEncodingInData := by
  intro s i hrun hfit hdata
  obtain ⟨rest, hfetch⟩ := encode_prefix_fetchBytes hfit hdata
  exact step_ok hrun (hfetch ▸ decode_encode i rest)

/-- Settles O8: there is no opcode to fetch, or fewer operand bytes than the opcode asks for. -/
theorem fetchPastEndFaults : Obligations.FetchPastEndFaults := by
  refine fun s hrun => ⟨fun hip => ?_, fun i hip hop hpast => ?_⟩
  · exact step_of_truncated hrun (by rw [fetchBytes_eq_nil hip, decode])
  · obtain ⟨bs, hlen, hdec⟩ := decode_fetchBytes hip
    obtain ⟨hshort, -⟩ := asksFor_decodeOperands i bs
    rw [hop, hshort (by omega)] at hdec
    exact step_of_truncated hrun hdec

end Sys2Proof.Machine

/-! SUPPORT. Data movement: what a completed load writes, what a completed store leaves in `data`, and what every
data-movement instruction keeps (40_data_movement.md). -/

namespace Sys2Proof.Machine

section
variable {i : Instr} {s t : State}

/-! ### Selectors that name no register (30_encoding.md R62, R63) -/

theorem oneOk_of_gt {b : Byte} (h : 3 < b.toNat) : oneOk b = false :=
  decide_eq_false (Nat.not_le_of_lt h)

theorem pairOk_of_gt {d r : Nibble} (h : 3 < d.toNat ∨ 3 < r.toNat) : pairOk d r = false := by
  rw [pairOk, Bool.and_eq_false_iff, decide_eq_false_iff_not, decide_eq_false_iff_not]
  omega

/-! ### Addresses outside `data` (20_memory.md R45, R46) -/

theorem orRaise_memRead1_outOfRange {ea : Word} (h : 4095 < ea.toNat) (k : Byte → StepResult) :
    orRaise (s.memRead1 ea) s k = .next (s.withFault .outOfBoundsAddress) := by
  rw [memRead1_outOfRange h, orRaise_raised, State.withFault]

theorem orRaise_memRead2_outOfRange {ea : Word} (h : 4094 < ea.toNat) (k : Word → StepResult) :
    orRaise (s.memRead2 ea) s k = .next (s.withFault .outOfBoundsAddress) := by
  rw [memRead2_outOfRange h, orRaise_raised, State.withFault]

theorem orRaise_memWrite1_outOfRange {ea : Word} (h : 4095 < ea.toNat) (v : Byte) (k : State → StepResult) :
    orRaise (s.memWrite1 ea v) s k = .next (s.withFault .outOfBoundsAddress) := by
  rw [memWrite1_outOfRange h, orRaise_raised, State.withFault]

theorem orRaise_memWrite2_outOfRange {ea : Word} (h : 4094 < ea.toNat) (v : Word) (k : State → StepResult) :
    orRaise (s.memWrite2 ea v) s k = .next (s.withFault .outOfBoundsAddress) := by
  rw [memWrite2_outOfRange h, orRaise_raised, State.withFault]

/-! ### Loads and stores that complete -/

/-- Completing after a register write, the written value given as a number. -/
theorem complete_setReg_wroteReg (d : RegIx) {v : Word} {n : Nat} (hv : v.toNat = n) (len : Nat) :
    ∃ t, complete len (s.setReg d v) = .next t ∧ s.wroteReg d n len t := by
  refine ⟨_, rfl, ?_, fun k hk => reg_setReg_of_ne s d k v hk, rfl, rfl⟩
  calc (s.setReg d v).reg d = v := reg_setReg_self s d v
    _ = BitVec.ofNat 16 n := by rw [← hv, BitVec.ofNat_toNat, BitVec.setWidth_eq]

/-- A low byte stored in canonical `data`. -/
theorem wf_and_read_write_lo8 {m : Memory} (hwf : m.wf) {a : Nat} (ha : a ≤ 4095) (v : Word) :
    (m.write a (lo8 v)).wf ∧ ((m.write a (lo8 v)).read a).toNat = v.toNat % 256 :=
  ⟨Memory.wf_write hwf (by omega) _, by rw [Memory.read_write_self hwf, toNat_lo8]⟩

/-- A word stored in canonical `data`: the second write leaves the first byte alone. -/
theorem wf_and_read_write_word {m : Memory} (hwf : m.wf) {a : Nat} (ha : a ≤ 4094) (v : Word) :
    ((m.write a (loByte v)).write (a + 1) (hiByte v)).wf ∧
      (((m.write a (loByte v)).write (a + 1) (hiByte v)).read a).toNat = v.toNat % 256 ∧
      (((m.write a (loByte v)).write (a + 1) (hiByte v)).read (a + 1)).toNat = v.toNat / 256 := by
  have hlow : (m.write a (loByte v)).wf := Memory.wf_write hwf (by omega) _
  refine ⟨Memory.wf_write hlow (by omega) _, ?_, ?_⟩
  · rw [Memory.read_write_of_ne _ _ (by omega), Memory.read_write_self hwf, toNat_loByte]
  · rw [Memory.read_write_self hlow, toNat_hiByte]

/-! ### The opcodes of data movement (40_data_movement.md R100) -/

theorem dataMovement_not_mem_aluOpcodes : ∀ b ∈ dataMovementOpcodes, b ∉ aluOpcodes := by decide

theorem dataMovement_not_mem_jumpOpcodes : ∀ b ∈ dataMovementOpcodes, b ∉ jumpOpcodes := by decide

/-- Non-membership in a list of opcodes, by evaluation. -/
theorem not_mem_opcodes {b : Byte} {l : List Byte} (h : l.elem b = false) : b ∉ l :=
  fun hmem => Bool.false_ne_true (h.symm.trans (List.elem_iff.mpr hmem))

/-- No check of a data-movement instruction can stop the model. -/
theorem exec_dataMovement_total (hi : i.opcode ∈ dataMovementOpcodes) (s : State) : ∃ t, exec i s = .next t := by
  have done (len : Nat) (u : State) : ∃ t, complete len u = .next t := ⟨_, rfl⟩
  cases i with
  | nop => exact done ..
  | movRdRs => exact orRaise_total (selPair_ne_stuck _ _) fun _ => done ..
  | movxRdImm8 | movRdImm16 => exact orRaise_total (selOne_ne_stuck _) fun _ => done ..
  | movxRdByteAddr =>
    exact orRaise_total (selOne_ne_stuck _) fun _ => orRaise_total (memRead1_ne_stuck _ _) fun _ => done ..
  | movRdWordAddr =>
    exact orRaise_total (selOne_ne_stuck _) fun _ => orRaise_total (memRead2_ne_stuck _ _) fun _ => done ..
  | movByteAddrRs =>
    exact orRaise_total (selOne_ne_stuck _) fun _ => orRaise_total (memWrite1_ne_stuck _ _ _) fun _ => done ..
  | movWordAddrRs =>
    exact orRaise_total (selOne_ne_stuck _) fun _ => orRaise_total (memWrite2_ne_stuck _ _ _) fun _ => done ..
  | movByteRdRs =>
    exact orRaise_total (selPair_ne_stuck _ _) fun _ => orRaise_total (memWrite1_ne_stuck _ _ _) fun _ => done ..
  | movxRdByteRs =>
    exact orRaise_total (selPair_ne_stuck _ _) fun _ => orRaise_total (memRead1_ne_stuck _ _) fun _ => done ..
  | _ => exact absurd hi (not_mem_opcodes rfl)

/-- An effect outside the ALU class keeps both flags. -/
theorem Effect.flags_eq (h : Effect i s t) (hi : i.opcode ∉ aluOpcodes) : t.zf = s.zf ∧ t.cf = s.cf :=
  ⟨by_contra fun hz => hi (h.mem_aluOpcodes (.inl hz)), by_contra fun hc => hi (h.mem_aluOpcodes (.inr hc))⟩

/-- A data movement faults with only `status` changed, or advances `ip` with `status` kept: the effects that do neither
belong to other opcodes. -/
theorem Effect.fault_or_completes (h : Effect i s t) (hi : i.opcode ∈ dataMovementOpcodes) :
    (∃ r, t = s.withFault r) ∨ (t.ip = s.ip + BitVec.ofNat 16 i.length ∧ t.status = s.status) := by
  cases h with
  | fault r => exact .inl ⟨r, rfl⟩
  | nop hnop => exact .inr ⟨hnop ▸ rfl, rfl⟩
  | load | store | fellThrough | alu | compared => exact .inr ⟨rfl, rfl⟩
  | jumped _ _ hjump => exact absurd hjump (dataMovement_not_mem_jumpOpcodes _ hi)
  | pushed _ hop | popped _ hop | unterminated _ hop | oversized _ _ _ hop | scanned _ _ _ hop | halts hop =>
    exact absurd hi (hop ▸ not_mem_opcodes rfl)
  | printed _ hop | badAddress hop => rcases hop with rfl | rfl <;> exact absurd hi (not_mem_opcodes rfl)

end

/-- Settles O29: the flags are kept because the opcode is none of the ALU's, and the rest is read off the effect. -/
theorem dataMovementCompletesOrFaultsWhole : Obligations.DataMovementCompletesOrFaultsWhole := by
  intro i s hi
  obtain ⟨t, hexec⟩ := exec_dataMovement_total hi s
  have heff := exec_effect hexec
  obtain ⟨hzf, hcf⟩ := heff.flags_eq (dataMovement_not_mem_aluOpcodes _ hi)
  exact ⟨t, hexec, hzf, hcf, heff.fault_or_completes hi⟩

/-- Settles O19. -/
theorem nopOnlyAdvances : Obligations.NopOnlyAdvances := ⟨rfl, fun _ => complete_next.mpr rfl⟩

/-- Settles O20: Rs is read from the state before the write. -/
theorem movCopiesRegister : Obligations.MovCopiesRegister := by
  refine fun d r s => ⟨rfl, fun h => exec_of_not_wellFormed (pairOk_of_gt h), ?_⟩
  rintro i j rfl rfl
  rw [exec, execMovRdRs, selPair_nibble, orRaise_ok]
  exact complete_setReg_wroteReg i rfl 2

/-- Settles O21: the byte read at `addr`, zero-extended. -/
theorem movxLoadsByteAbsolute : Obligations.MovxLoadsByteAbsolute := by
  refine fun d addr s => ⟨rfl, fun h => exec_of_not_wellFormed (oneOk_of_gt h), ?_⟩
  rintro i rfl
  rw [exec, execMovxRdByteAddr, selOne_byte, orRaise_ok]
  refine ⟨fun h => orRaise_memRead1_outOfRange h _, fun h => ?_⟩
  rw [memRead1_inRange h, orRaise_ok]
  exact complete_setReg_wroteReg i (toNat_zext16 _) 4

/-- Settles O22: the low byte of the word is at `addr`, the high byte at `addr + 1`. -/
theorem movLoadsWordAbsolute : Obligations.MovLoadsWordAbsolute := by
  refine fun d addr s => ⟨rfl, fun h => exec_of_not_wellFormed (oneOk_of_gt h), ?_⟩
  rintro i rfl
  rw [exec, execMovRdWordAddr, selOne_byte, orRaise_ok]
  refine ⟨fun h => orRaise_memRead2_outOfRange h _, fun h => ?_⟩
  rw [memRead2_inRange h, orRaise_ok]
  exact complete_setReg_wroteReg i ((toNat_wordOf _ _).trans (Nat.add_comm _ _)) 4

/-- Settles O23. -/
theorem movxLoadsImmediateByte : Obligations.MovxLoadsImmediateByte := by
  refine fun d imm s => ⟨rfl, fun h => exec_of_not_wellFormed (oneOk_of_gt h), ?_⟩
  rintro i rfl
  rw [exec, execMovxRdImm8, selOne_byte, orRaise_ok]
  exact complete_setReg_wroteReg i (toNat_zext16 imm) 3

/-- Settles O24. -/
theorem movLoadsImmediateWord : Obligations.MovLoadsImmediateWord := by
  refine fun d imm s => ⟨rfl, fun h => exec_of_not_wellFormed (oneOk_of_gt h), ?_⟩
  rintro i rfl
  rw [exec, execMovRdImm16, selOne_byte, orRaise_ok]
  exact complete_setReg_wroteReg i rfl 4

/-- Settles O25: the only byte written is the one at `addr`. -/
theorem movStoresByteAbsolute : Obligations.MovStoresByteAbsolute := by
  refine fun r addr s => ⟨rfl, fun h => exec_of_not_wellFormed (oneOk_of_gt h), ?_⟩
  rintro i rfl
  refine ⟨fun h => ?_, fun h => ⟨_, exec_movByteAddrRs_inRange h i, fun hwf => wf_and_read_write_lo8 hwf h _,
    fun _ hne => Memory.read_write_of_ne _ _ hne, rfl⟩⟩
  rw [exec, execMovByteAddrRs, selOne_byte, orRaise_ok]
  exact orRaise_memWrite1_outOfRange h _ _

/-- Settles O26: both bytes are checked before either is written. -/
theorem movStoresWordAbsolute : Obligations.MovStoresWordAbsolute := by
  refine fun r addr s => ⟨rfl, fun h => exec_of_not_wellFormed (oneOk_of_gt h), ?_⟩
  rintro i rfl
  rw [exec, execMovWordAddrRs, selOne_byte, orRaise_ok]
  refine ⟨fun h => orRaise_memWrite2_outOfRange h _ _, fun h => ?_⟩
  rw [memWrite2_inRange h, orRaise_ok]
  refine ⟨_, rfl, fun hwf => wf_and_read_write_word hwf h _, fun a hlow hhigh => ?_, rfl⟩
  exact (Memory.read_write_of_ne _ _ hhigh).trans (Memory.read_write_of_ne _ _ hlow)

/-- Settles O27: the address is Rd's value, and the only byte written is the one there. -/
theorem movStoresByteIndirect : Obligations.MovStoresByteIndirect := by
  refine fun d r s => ⟨rfl, fun h => exec_of_not_wellFormed (pairOk_of_gt h), ?_⟩
  rintro i j rfl rfl
  rw [exec, execMovByteRdRs, selPair_nibble, orRaise_ok]
  refine ⟨fun h => orRaise_memWrite1_outOfRange h _ _, fun h => ?_⟩
  rw [memWrite1_inRange h, orRaise_ok]
  exact ⟨_, rfl, fun hwf => wf_and_read_write_lo8 hwf h _, fun _ hne => Memory.read_write_of_ne _ _ hne, rfl⟩

/-- Settles O28: the address is read from Rs before Rd is written, so Rd and Rs may be one register. -/
theorem movxLoadsByteIndirect : Obligations.MovxLoadsByteIndirect := by
  refine fun d r s => ⟨rfl, fun h => exec_of_not_wellFormed (pairOk_of_gt h), ?_⟩
  rintro i j rfl rfl
  rw [exec, execMovxRdByteRs, selPair_nibble, orRaise_ok]
  refine ⟨fun h => orRaise_memRead1_outOfRange h _, fun h => ?_⟩
  rw [memRead1_inRange h, orRaise_ok]
  exact complete_setReg_wroteReg i (toNat_zext16 _) 2

end Sys2Proof.Machine

/-! SUPPORT. The jumps as propositions about the flags, the order of two compared operands in the flags, and the opcode
byte of a decoded instruction (41_control_transfer.md, 42_arithmetic.md R135, 45_halt.md R190). -/

namespace Sys2Proof.Machine

section
variable {i : Instr} {s t : State} {rest : List Byte}

/-! ### Jump conditions (41_control_transfer.md R111) -/

theorem condJz_iff : condJz s = true ↔ s.zf = true := Iff.rfl

theorem condJnz_iff : condJnz s = true ↔ s.zf = false := by
  rw [condJnz, Bool.not_eq_true']

theorem condJae_iff : condJae s = true ↔ s.zf = true ∨ s.cf = false := by
  rw [condJae, Bool.or_eq_true, Bool.not_eq_true']

theorem condJbe_iff : condJbe s = true ↔ s.zf = true ∨ s.cf = true := by
  rw [condJbe, Bool.or_eq_true]

theorem condJb_iff : condJb s = true ↔ s.cf = true ∧ s.zf = false := by
  rw [condJb, Bool.and_eq_true, Bool.not_eq_true']

theorem condJa_iff : condJa s = true ↔ s.cf = false ∧ s.zf = false := by
  rw [condJa, Bool.and_eq_true, Bool.not_eq_true', Bool.not_eq_true']

/-- A jump to a target in `data`, its condition read as a proposition. -/
theorem jump_inRange_of_iff {target : Word} (h : target.toNat ≤ 4095) {c : Bool} {P : Prop} [Decidable P]
    (hc : c = true ↔ P) :
    jump target c s = .next { s with ip := if P then target else s.ip + 3#16 } := by
  rw [jump_inRange h, if_congr hc rfl rfl]

/-! ### The flags after a compare (42_arithmetic.md R135) -/

/-- The flags hold the order of `p` and `q`: `zf` that they are equal, `cf` that `p` is below `q`. -/
structure State.Ordered (s : State) (p q : Nat) : Prop where
  zf_eq : s.zf = decide (p = q)
  cf_eq : s.cf = decide (p < q)

theorem exec_cmpRdRs_nibbles (i j : RegIx) (s : State) : ∃ t, exec (.cmpRdRs i.nibble j.nibble) s = .next t ∧
    t.Ordered (s.reg i).toNat (s.reg j).toNat := by
  refine ⟨_, by rw [exec, execCmpRdRs, selPair_nibble, orRaise_ok, complete], ?_, ?_⟩
  · exact cmpZfW_eq _ _
  · exact cmpCfW_eq _ _

theorem exec_cmplRdRs_nibbles (i j : RegIx) (s : State) : ∃ t, exec (.cmplRdRs i.nibble j.nibble) s = .next t ∧
    t.Ordered ((s.reg i).toNat % 256) ((s.reg j).toNat % 256) := by
  refine ⟨_, by rw [exec, execCmplRdRs, selPair_nibble, orRaise_ok, complete], ?_, ?_⟩
  · rw [← toNat_lo8, ← toNat_lo8]; exact cmpZfB_eq _ _
  · rw [← toNat_lo8, ← toNat_lo8]; exact cmpCfB_eq _ _

namespace State.Ordered
variable {p q : Nat}

theorem zf_true_iff (h : s.Ordered p q) : s.zf = true ↔ p = q := by rw [h.zf_eq, decide_eq_true_eq]

theorem zf_false_iff (h : s.Ordered p q) : s.zf = false ↔ p ≠ q := by rw [h.zf_eq, decide_eq_false_iff_not]

theorem cf_true_iff (h : s.Ordered p q) : s.cf = true ↔ p < q := by rw [h.cf_eq, decide_eq_true_eq]

theorem cf_false_iff (h : s.Ordered p q) : s.cf = false ↔ q ≤ p := by rw [h.cf_eq, decide_eq_false_iff_not, Nat.not_lt]

theorem condJz_iff_eq (h : s.Ordered p q) : condJz s = true ↔ p = q := condJz_iff.trans h.zf_true_iff

theorem condJnz_iff_ne (h : s.Ordered p q) : condJnz s = true ↔ p ≠ q := condJnz_iff.trans h.zf_false_iff

theorem condJb_iff_lt (h : s.Ordered p q) : condJb s = true ↔ p < q := by
  rw [condJb_iff, h.cf_true_iff, h.zf_false_iff]; omega

theorem condJbe_iff_le (h : s.Ordered p q) : condJbe s = true ↔ p ≤ q := by
  rw [condJbe_iff, h.zf_true_iff, h.cf_true_iff]; omega

theorem condJa_iff_gt (h : s.Ordered p q) : condJa s = true ↔ q < p := by
  rw [condJa_iff, h.cf_false_iff, h.zf_false_iff]; omega

theorem condJae_iff_ge (h : s.Ordered p q) : condJae s = true ↔ q ≤ p := by
  rw [condJae_iff, h.zf_true_iff, h.cf_false_iff]; omega

end State.Ordered

/-! ### The end of a run (45_halt.md R190) -/

/-- Every effect but HALT's faults or keeps `status`. -/
theorem Effect.eq_halt_of_halted (h : Effect i s t) (hrun : s.status = .running) (ht : t.status = .halted) :
    i = .halt := by
  cases h with
  | halts hi => exact hi
  | fault | badAddress | unterminated | oversized => cases ht
  | _ => cases hrun.symm.trans ht

/-- The byte at `ip` is the opcode of the instruction that the fetch decodes. -/
theorem read_ip_of_decode (h : decode s.fetchBytes = .ok (i, rest)) : s.data.read s.ip.toNat = i.opcode := by
  have hip : s.ip.toNat ≤ 4095 := by
    by_contra hpast
    rw [fetchBytes_eq_nil (by omega)] at h
    cases h
  obtain ⟨bs, hfetch⟩ := fetchBytes_eq_cons hip
  obtain ⟨-, hhead, -⟩ := encodingShape i
  have hbytes := congrArg List.head? (hfetch.symm.trans (encode_of_decode h))
  rw [List.head?_append, hhead] at hbytes
  exact Option.some.inj hbytes

end

/-- Settles O12: a refusal of the decoder faults, and the only instruction that halts is HALT, whose opcode is 0xED. -/
theorem onlyHaltHalts : Obligations.OnlyHaltHalts := by
  intro s t hstep ht
  obtain ⟨hrun, ⟨e, -, rfl⟩ | ⟨i, rest, hdec, hexec⟩⟩ := step_next hstep
  · cases ht
  · obtain rfl := (exec_effect hexec).eq_halt_of_halted hrun ht
    exact read_ip_of_decode hdec

/-- Settles O30, jump by jump. -/
theorem jumpsFollowTheirConditions : Obligations.JumpsFollowTheirConditions := fun _ _ ht =>
  ⟨jump_inRange ht true _, jump_inRange_of_iff ht condJz_iff, jump_inRange_of_iff ht condJnz_iff,
    jump_inRange_of_iff ht condJae_iff, jump_inRange_of_iff ht condJbe_iff, jump_inRange_of_iff ht condJb_iff,
    jump_inRange_of_iff ht condJa_iff⟩

/-- Settles O31: the common rule of the jumps checks the target before it looks at the condition. -/
theorem jumpOutOfRangeFaults : Obligations.JumpOutOfRangeFaults := by
  intro t s ht i hi
  simp only [List.mem_cons, List.not_mem_nil, or_false] at hi
  rcases hi with rfl | rfl | rfl | rfl | rfl | rfl | rfl
  all_goals exact jump_outOfRange ht _ s

/-- Settles O32: either compare leaves the order of its operands in the flags, and each condition reads that order. -/
theorem comparedJumpsOrderUnsigned : Obligations.ComparedJumpsOrderUnsigned := by
  intro i j s
  obtain ⟨w, hcmp, hw⟩ := exec_cmpRdRs_nibbles i j s
  obtain ⟨b, hcmpl, hb⟩ := exec_cmplRdRs_nibbles i j s
  refine ⟨w, b, hcmp, hcmpl, fun c p q hc t ht => ?_⟩
  have hord : c.Ordered p q := by
    rcases hc with ⟨rfl, rfl, rfl⟩ | ⟨rfl, rfl, rfl⟩
    · exact hw
    · exact hb
  exact ⟨jump_inRange_of_iff ht hord.condJb_iff_lt, jump_inRange_of_iff ht hord.condJbe_iff_le,
    jump_inRange_of_iff ht hord.condJa_iff_gt, jump_inRange_of_iff ht hord.condJae_iff_ge,
    jump_inRange_of_iff ht hord.condJz_iff_eq, jump_inRange_of_iff ht hord.condJnz_iff_ne⟩

end Sys2Proof.Machine

/-! SUPPORT. Arithmetic: the results of the ALU functions as numbers, what a completed ALU instruction writes, and the
two ends that every ALU instruction has (42_arithmetic.md). -/

namespace Sys2Proof.Machine

section
variable {s : State}

/-! ### Results as numbers (42_arithmetic.md R130 to R133) -/

theorem toNat_addW_res (p q : Word) : (addW p q).res.toNat = (p.toNat + q.toNat) % 65536 := BitVec.toNat_add p q

theorem toNat_addB_res (p q : Byte) : (addB p q).res.toNat = (p.toNat + q.toNat) % 256 := BitVec.toNat_add p q

theorem toNat_subW_res (p q : Word) : (subW p q).res.toNat = (65536 + p.toNat - q.toNat) % 65536 := by
  rw [subW_res]; bv_omega

theorem toNat_subB_res (p q : Byte) : (subB p q).res.toNat = (256 + p.toNat - q.toNat) % 256 := by
  rw [subB_res]; bv_omega

theorem beq_zero_iff_toNat {w : Nat} (v : BitVec w) : (v == 0#w) = true ↔ v.toNat = 0 := by
  rw [beq_zero_eq_decide, decide_eq_true_eq]

/-! ### A word with its low byte replaced -/

theorem toNat_withLo8_mod (v : Word) (b : Byte) : (withLo8 v b).toNat % 256 = b.toNat := by
  rw [← toNat_lo8, lo8_withLo8]

theorem getLsbD_lo8 {n : Nat} (hn : n < 8) (v : Word) : (lo8 v).getLsbD n = v.getLsbD n := by
  rw [lo8, BitVec.getLsbD_extractLsb', Nat.zero_add, decide_eq_true hn, Bool.true_and]

theorem getLsbD_withLo8_low {n : Nat} (hn : n < 8) (v : Word) (b : Byte) :
    (withLo8 v b).getLsbD n = b.getLsbD n := by
  rw [← getLsbD_lo8 hn, lo8_withLo8]

/-- The words agree when both are divided by 256, so their bits from 8 on are the same. -/
theorem getLsbD_withLo8_high {n : Nat} (hn : 8 ≤ n) (v : Word) (b : Byte) :
    (withLo8 v b).getLsbD n = v.getLsbD n := by
  obtain ⟨m, rfl⟩ := Nat.exists_eq_add_of_le' hn
  have hdiv : (withLo8 v b).toNat / 2 ^ 8 = v.toNat / 2 ^ 8 := by
    have := b.isLt
    rw [toNat_withLo8]; omega
  rw [BitVec.getLsbD, BitVec.getLsbD, ← Nat.testBit_div_two_pow, hdiv, Nat.testBit_div_two_pow]

/-! ### ALU instructions that complete (42_arithmetic.md R149) -/

/-- Completing after a word result: the register holds the result, given as a number. -/
theorem complete_putW_wroteAlu (d : RegIx) {r : AluResult 16} {v : Nat} {z c : Bool} (hres : r.res.toNat = v)
    (hz : r.zf = z) (hc : r.cf = c) (len : Nat) :
    ∃ t, complete len (s.putW d r) = .next t ∧ s.wroteAlu d v z c len t := by
  refine ⟨_, rfl, ?_, fun k hk => putW_reg_of_ne s d k r hk, hz, hc, rfl, rfl⟩
  calc (s.putW d r).reg d = r.res := putW_reg_self s d r
    _ = BitVec.ofNat 16 v := by rw [← hres, BitVec.ofNat_toNat, BitVec.setWidth_eq]

/-- Completing after a byte result: the high byte keeps its value. -/
theorem complete_putB_wroteAlu (d : RegIx) {r : AluResult 8} {v : Nat} {z c : Bool} (hres : r.res.toNat = v)
    (hz : r.zf = z) (hc : r.cf = c) (len : Nat) :
    ∃ t, complete len (s.putB d r) = .next t ∧ s.wroteAlu d ((s.reg d).toNat / 256 * 256 + v) z c len t :=
  complete_putW_wroteAlu d (r := ⟨withLo8 (s.reg d) r.res, r.zf, r.cf⟩) (by rw [toNat_withLo8, hres]) hz hc len

/-- The destination register after an ALU instruction, as the word whose number was written. -/
theorem State.wroteAlu.reg_eq {d : RegIx} {v : Word} {z c : Bool} {len : Nat} {t : State}
    (h : s.wroteAlu d v.toNat z c len t) : t.reg d = v := by
  obtain ⟨hreg, -⟩ := h
  rw [hreg, BitVec.ofNat_toNat, BitVec.setWidth_eq]

/-- The byte add on the low byte of a register, its other operand given as a number. -/
theorem complete_addB_wroteAlu (d : RegIx) {q : Byte} {m : Nat} (hq : q.toNat = m) (len : Nat) :
    ∃ t, complete len (s.putB d (addB (lo8 (s.reg d)) q)) = .next t ∧
      let p := (s.reg d).toNat % 256
      let v := (p + m) % 256
      s.wroteAlu d ((s.reg d).toNat / 256 * 256 + v) (decide (v = 0)) (decide (v < p)) len t := by
  rw [← hq, ← toNat_lo8]
  exact complete_putB_wroteAlu d (toNat_addB_res _ _) (addB_zf _ _) (addB_cf _ _) len

/-- The byte subtract from the low byte of a register, its other operand given as a number. -/
theorem complete_subB_wroteAlu (d : RegIx) {q : Byte} {m : Nat} (hq : q.toNat = m) (len : Nat) :
    ∃ t, complete len (s.putB d (subB (lo8 (s.reg d)) q)) = .next t ∧
      let p := (s.reg d).toNat % 256
      let v := (256 + p - m) % 256
      s.wroteAlu d ((s.reg d).toNat / 256 * 256 + v) (decide (v = 0)) (decide (p < v)) len t := by
  rw [← hq, ← toNat_lo8]
  exact complete_putB_wroteAlu d (toNat_subB_res _ _) (subB_zf _ _) (subB_cf _ _) len

/-! ### What any ALU instruction can do (42_arithmetic.md R149) -/

/-- The two ends of an ALU instruction with destination `dest` and length `len`: the selector fault, or at most the
destination register, the flags and `ip` written. -/
def State.aluEnd (s : State) (dest : Option Nat) (len : Nat) (t : State) : Prop :=
  t = s.withFault .invalidRegisterSelector ∨
    (t = { s with x := t.x, zf := t.zf, cf := t.cf, ip := s.ip + BitVec.ofNat 16 len } ∧
      ∀ k : RegIx, dest ≠ some k.val → t.reg k = s.reg k)

theorem State.wroteAlu.aluEnd {d : RegIx} {v len : Nat} {z c : Bool} {t : State} (h : s.wroteAlu d v z c len t) :
    s.aluEnd (some d.val) len t := by
  obtain ⟨-, hreg, -, -, hip, hframe⟩ := h
  exact .inr ⟨hip ▸ hframe, fun k hk => hreg k fun hkd => hk (hkd ▸ rfl)⟩

theorem complete_putW_aluEnd {d : RegIx} {n : Nat} (hd : n = d.val) (r : AluResult 16) (len : Nat) :
    ∃ t, complete len (s.putW d r) = .next t ∧ s.aluEnd (some n) len t :=
  have ⟨t, hnext, hwrote⟩ := complete_putW_wroteAlu (s := s) d (r := r) rfl rfl rfl len
  ⟨t, hnext, hd ▸ hwrote.aluEnd⟩

theorem complete_putB_aluEnd {d : RegIx} {n : Nat} (hd : n = d.val) (r : AluResult 8) (len : Nat) :
    ∃ t, complete len (s.putB d r) = .next t ∧ s.aluEnd (some n) len t :=
  have ⟨t, hnext, hwrote⟩ := complete_putB_wroteAlu (s := s) d (r := r) rfl rfl rfl len
  ⟨t, hnext, hd ▸ hwrote.aluEnd⟩

theorem complete_setFlags_aluEnd (z c : Bool) (dest : Option Nat) (len : Nat) :
    ∃ t, complete len (s.setFlags z c) = .next t ∧ s.aluEnd dest len t :=
  ⟨_, rfl, .inr ⟨rfl, fun _ _ => rfl⟩⟩

/-- A single selector either names the destination, if there is one, or ends the instruction in the selector fault. -/
theorem orRaise_selOne_aluEnd {b : Byte} {dest : Option Nat} {len : Nat} {k : RegIx → StepResult}
    (hk : ∀ i : RegIx, b.toNat = i.val → ∃ t, k i = .next t ∧ s.aluEnd dest len t) :
    ∃ t, orRaise (selOne b) s k = .next t ∧ s.aluEnd dest len t := by
  rcases selOne_cases b with ⟨i, rfl, hsel⟩ | ⟨hbad, -⟩
  · rw [hsel, orRaise_ok]
    exact hk i (RegIx_toNat_byte i)
  · exact ⟨_, orRaise_selOne_of_invalid hbad k, .inl rfl⟩

/-- A pair selector either names the operands, the first of them the destination if there is one, or ends the
instruction in the selector fault. -/
theorem orRaise_selPair_aluEnd {d r : Nibble} {dest : Option Nat} {len : Nat} {k : RegIx × RegIx → StepResult}
    (hk : ∀ i j : RegIx, d.toNat = i.val → ∃ t, k (i, j) = .next t ∧ s.aluEnd dest len t) :
    ∃ t, orRaise (selPair d r) s k = .next t ∧ s.aluEnd dest len t := by
  rcases selPair_cases d r with ⟨i, j, rfl, rfl, hsel⟩ | ⟨hbad, -⟩
  · rw [hsel, orRaise_ok]
    exact hk i j (RegIx_toNat_nibble i)
  · exact ⟨_, orRaise_selPair_of_invalid hbad k, .inl rfl⟩

/-- Every ALU instruction answers a next state, one of its two ends. -/
theorem exec_alu_aluEnd {i : Instr} (hi : i.opcode ∈ aluOpcodes) (s : State) :
    ∃ t, exec i s = .next t ∧ s.aluEnd i.destination i.length t := by
  cases i with
  | addRdImm16 | subRdImm16 => exact orRaise_selOne_aluEnd fun _ hd => complete_putW_aluEnd hd _ 4
  | addlRdImm8 | sublRdImm8 => exact orRaise_selOne_aluEnd fun _ hd => complete_putB_aluEnd hd _ 3
  | addRdRs | subRdRs | xorRdRs => exact orRaise_selPair_aluEnd fun _ _ hd => complete_putW_aluEnd hd _ 2
  | addlRdRs | sublRdRs | xorlRdRs => exact orRaise_selPair_aluEnd fun _ _ hd => complete_putB_aluEnd hd _ 2
  | cmpRdRs | cmplRdRs => exact orRaise_selPair_aluEnd fun _ _ _ => complete_setFlags_aluEnd _ _ none 2
  | _ => exact absurd hi (not_mem_opcodes rfl)

/-- Only an ALU effect writes a flag, and of these only an add can write both as 1 (42_arithmetic.md R136 (d)). -/
theorem Effect.both_flags {i : Instr} {t : State} (h : Effect i s t) (hz : t.zf = true) (hc : t.cf = true) :
    (s.zf = true ∧ s.cf = true) ∨ i.opcode ∈ addOpcodes := by
  cases h with
  | alu _ _ _ _ _ _ hzc => exact .inr (hzc hz hc)
  | compared _ _ _ hzc => exact absurd ((hzc hz).symm.trans hc) Bool.false_ne_true
  | _ => exact .inl ⟨hz, hc⟩

end

/-- Settles O43. -/
theorem bothFlagsOnlyFromAdd : Obligations.BothFlagsOnlyFromAdd :=
  fun _ _ _ hexec hz hc => (exec_effect hexec).both_flags hz hc

/-- Settles O44. -/
theorem aluWritesOneRegisterAndFlags : Obligations.AluWritesOneRegisterAndFlags :=
  fun _ s hi => exec_alu_aluEnd hi s

/-- Settles O33: each flag is the comparison its rule names, read on numbers. -/
theorem aluFunctionsFollowTheirRules : Obligations.AluFunctionsFollowTheirRules := by
  refine ⟨fun p q => ⟨⟨toNat_addW_res p q, beq_zero_iff_toNat _, decide_eq_true_iff⟩,
    ⟨?subW, beq_zero_iff_toNat _, decide_eq_true_iff⟩, ?cmpW, decide_eq_true_iff⟩,
    fun p q => ⟨⟨toNat_addB_res p q, beq_zero_iff_toNat _, decide_eq_true_iff⟩,
    ⟨?subB, beq_zero_iff_toNat _, decide_eq_true_iff⟩, ?cmpB, decide_eq_true_iff⟩⟩
  case subW => have := q.isLt; rw [toNat_subW_res]; omega
  case cmpW => rw [cmpZfW_eq, decide_eq_true_eq]
  case subB => have := q.isLt; rw [toNat_subB_res]; omega
  case cmpB => rw [cmpZfB_eq, decide_eq_true_eq]

/-- Settles O34: both forms write the word sum, of which the flags are computed. -/
theorem addWord : Obligations.AddWord := by
  refine fun s => ⟨fun d r => ⟨rfl, fun h => exec_of_not_wellFormed (pairOk_of_gt h), ?_⟩,
    fun d imm => ⟨rfl, fun h => exec_of_not_wellFormed (oneOk_of_gt h), ?_⟩⟩
  · rintro i j rfl rfl
    rw [exec, execAddRdRs, selPair_nibble, orRaise_ok]
    exact complete_putW_wroteAlu i (toNat_addW_res _ _) (addW_zf _ _) (addW_cf _ _) 2
  · rintro i rfl
    rw [exec, execAddRdImm16, selOne_byte, orRaise_ok]
    exact complete_putW_wroteAlu i (toNat_addW_res _ _) (addW_zf _ _) (addW_cf _ _) 4

/-- Settles O35: both forms add to the low byte alone. -/
theorem addLowByte : Obligations.AddLowByte := by
  refine fun s => ⟨fun d r => ⟨rfl, fun h => exec_of_not_wellFormed (pairOk_of_gt h), ?_⟩,
    fun d imm => ⟨rfl, fun h => exec_of_not_wellFormed (oneOk_of_gt h), ?_⟩⟩
  · rintro i j rfl rfl
    rw [exec, execAddlRdRs, selPair_nibble, orRaise_ok]
    exact complete_addB_wroteAlu i (toNat_lo8 _) 2
  · rintro i rfl
    rw [exec, execAddlRdImm8, selOne_byte, orRaise_ok]
    exact complete_addB_wroteAlu i rfl 3

/-- Settles O36: both forms write the word difference, of which the flags are computed. -/
theorem subWord : Obligations.SubWord := by
  refine fun s => ⟨fun d r => ⟨rfl, fun h => exec_of_not_wellFormed (pairOk_of_gt h), ?_⟩,
    fun d imm => ⟨rfl, fun h => exec_of_not_wellFormed (oneOk_of_gt h), ?_⟩⟩
  · rintro i j rfl rfl
    rw [exec, execSubRdRs, selPair_nibble, orRaise_ok]
    exact complete_putW_wroteAlu i (toNat_subW_res _ _) (subW_zf _ _) (subW_cf _ _) 2
  · rintro i rfl
    rw [exec, execSubRdImm16, selOne_byte, orRaise_ok]
    exact complete_putW_wroteAlu i (toNat_subW_res _ _) (subW_zf _ _) (subW_cf _ _) 4

/-- Settles O37: both forms subtract from the low byte alone. -/
theorem subLowByte : Obligations.SubLowByte := by
  refine fun s => ⟨fun d r => ⟨rfl, fun h => exec_of_not_wellFormed (pairOk_of_gt h), ?_⟩,
    fun d imm => ⟨rfl, fun h => exec_of_not_wellFormed (oneOk_of_gt h), ?_⟩⟩
  · rintro i j rfl rfl
    rw [exec, execSublRdRs, selPair_nibble, orRaise_ok]
    exact complete_subB_wroteAlu i (toNat_lo8 _) 2
  · rintro i rfl
    rw [exec, execSublRdImm8, selOne_byte, orRaise_ok]
    exact complete_subB_wroteAlu i rfl 3

/-- Settles O38: a value XORed with itself is 0. -/
theorem xorWord : Obligations.XorWord := by
  refine fun d r s => ⟨rfl, fun h => exec_of_not_wellFormed (pairOk_of_gt h), ?_⟩
  rintro i j rfl rfl
  rw [exec, execXorRdRs, selPair_nibble, orRaise_ok]
  obtain ⟨t, hnext, hwrote⟩ := complete_putW_wroteAlu (s := s) i (r := xorW (s.reg i) (s.reg j)) rfl
    (beq_zero_eq_decide _) rfl 2
  have hreg : t.reg i = s.reg i ^^^ s.reg j := hwrote.reg_eq
  refine ⟨t, hnext, fun n _ => by rw [hreg, BitVec.getLsbD_xor], hreg ▸ hwrote, ?_⟩
  rintro rfl
  have hzero : t.reg i = 0#16 := hreg.trans BitVec.xor_self
  obtain ⟨-, -, hzf, -⟩ := hwrote
  exact ⟨hzero, by rw [hzf, ← hreg, hzero]; rfl⟩

/-- Settles O39: the bits below 8 come from the byte result, the others from the old value. -/
theorem xorLowByte : Obligations.XorLowByte := by
  refine fun d r s => ⟨rfl, fun h => exec_of_not_wellFormed (pairOk_of_gt h), ?_⟩
  rintro i j rfl rfl
  rw [exec, execXorlRdRs, selPair_nibble, orRaise_ok]
  obtain ⟨t, hnext, hwrote⟩ := complete_putB_wroteAlu (s := s) i (r := xorB (lo8 (s.reg i)) (lo8 (s.reg j))) rfl
    (beq_zero_eq_decide _) rfl 2
  rw [← toNat_withLo8, ← toNat_withLo8_mod (s.reg i)] at hwrote
  have hreg : t.reg i = withLo8 (s.reg i) (lo8 (s.reg i) ^^^ lo8 (s.reg j)) := hwrote.reg_eq
  refine ⟨t, hnext, fun n hn => ?_, fun n hn => by rw [hreg, getLsbD_withLo8_high hn], hreg ▸ hwrote⟩
  rw [hreg, getLsbD_withLo8_low hn, BitVec.getLsbD_xor, getLsbD_lo8 hn, getLsbD_lo8 hn]

/-- Settles O40. -/
theorem cmpWord : Obligations.CmpWord := by
  refine fun d r s => ⟨rfl, fun h => exec_of_not_wellFormed (pairOk_of_gt h), ?_⟩
  rintro i j rfl rfl
  rw [exec, execCmpRdRs, selPair_nibble, orRaise_ok, cmpZfW_eq, cmpCfW_eq]
  exact complete_next.mpr rfl

/-- Settles O41: the numbers of the low bytes are the registers' modulo 256. -/
theorem cmpLowByte : Obligations.CmpLowByte := by
  refine fun d r s => ⟨rfl, fun h => exec_of_not_wellFormed (pairOk_of_gt h), ?_⟩
  rintro i j rfl rfl
  rw [exec, execCmplRdRs, selPair_nibble, orRaise_ok, cmpZfB_eq, cmpCfB_eq, toNat_lo8, toNat_lo8]
  exact complete_next.mpr rfl

/-- Settles O42: the result wraps exactly when the sum reaches the modulus, or the subtrahend is above the minuend. -/
theorem carryIsCarryOut : Obligations.CarryIsCarryOut := by
  refine ⟨fun p q => ?_, fun p q => ?_⟩
  · have := p.isLt
    have := q.isLt
    rw [addW_cf, subW_cf, cmpZfW_eq, subW_zf, cmpCfW_eq]
    refine ⟨?_, ?_, ?_, ?_⟩
    all_goals exact decide_eq_decide.mpr (by omega)
  · have := p.isLt
    have := q.isLt
    rw [addB_cf, subB_cf, cmpZfB_eq, subB_zf, cmpCfB_eq]
    refine ⟨?_, ?_, ?_, ?_⟩
    all_goals exact decide_eq_decide.mpr (by omega)

end Sys2Proof.Machine

/-! SUPPORT. POP on a stack that is not empty, or is, and a PUSH undone by a POP (43_stack.md R161, R162). -/

namespace Sys2Proof.Machine

section
variable {s : State}

/-! ### POP (43_stack.md R161) -/

/-- The top of a stack that is not empty is the cell at `sp`. -/
theorem top_eq_cell {k : Fin 256} (hk : k.val = s.sp.toNat) : s.top = .ok (s.cell k) := by
  have hlt : s.sp.toNat < 256 := hk ▸ k.isLt
  rw [top_of_lt hlt]
  simp only [State.cell, Fin.getElem_fin, hk]

/-- A POP on a stack that is not empty completes: the register holds the cell at the old `sp`. -/
theorem exec_popRd_of_cell {k : Fin 256} (hk : k.val = s.sp.toNat) (i : RegIx) : ∃ t,
    exec (.popRd i.byte) s = .next t ∧ t.reg i = s.cell k ∧ (∀ j, j ≠ i → t.reg j = s.reg j) ∧
    t = { s with x := t.x, sp := s.sp + 1#16, ip := s.ip + 2#16 } := by
  rw [exec, execPopRd, selOne_byte, orRaise_ok, top_eq_cell hk, orRaise_ok]
  exact ⟨_, rfl, reg_setReg_self s.popped i _, fun j hj => reg_setReg_of_ne s.popped i j _ hj, rfl⟩

/-- A POP from an empty stack underflows. -/
theorem exec_popRd_of_empty (h : s.sp.toNat = 256) (i : RegIx) :
    exec (.popRd i.byte) s = .next (s.withFault .stackUnderflow) := by
  rw [exec, execPopRd, selOne_byte, orRaise_ok, top_of_empty h, orRaise_raised, State.withFault]

/-! ### PUSH, then POP (43_stack.md R162) -/

/-- What the frames of a PUSH and of the POP after it leave of the first state: `sp` comes back, and `ip` has moved by
both lengths. -/
theorem pushThenPop_frame {t u : State} (ht : t = { s with stack := t.stack, sp := s.sp - 1#16, ip := s.ip + 2#16 })
    (hu : u = { t with x := u.x, sp := t.sp + 1#16, ip := t.ip + 2#16 }) :
    u = { s with x := u.x, stack := u.stack, ip := s.ip + 4#16 } := by
  have hsp : s.sp - 1#16 + 1#16 = s.sp := BitVec.sub_add_cancel _ _
  have hip : s.ip + 2#16 + 2#16 = s.ip + 4#16 := BitVec.add_assoc _ _ _
  have hstack : u.stack = t.stack := by rw [hu]
  rw [ht] at hu
  rw [hstack, ← hip, hu, hsp]

end

/-- Settles O45. -/
theorem pushStores : Obligations.PushStores := by
  refine fun r s => ⟨rfl, fun h => exec_of_not_wellFormed (oneOk_of_gt h), ?_⟩
  rintro i rfl
  exact ⟨fun h0 => exec_pushRs_of_full h0 i, fun hpos hle => exec_pushRs_of_pos hpos hle i⟩

/-- Settles O46. -/
theorem popLoads : Obligations.PopLoads := by
  refine fun d s => ⟨rfl, fun h => exec_of_not_wellFormed (oneOk_of_gt h), ?_⟩
  rintro i rfl
  exact ⟨fun hempty => exec_popRd_of_empty hempty i, fun k hk => exec_popRd_of_cell hk i⟩

/-- Settles O47: the POP reads the one cell the PUSH wrote, the one just below the first `sp`. -/
theorem pushThenPopCopies : Obligations.PushThenPopCopies := by
  intro i j s hpos hle
  obtain ⟨t, hpush, hcell, ht⟩ := exec_pushRs_of_pos hpos hle i
  have htsp : t.sp.toNat = s.sp.toNat - 1 := by rw [congrArg State.sp ht]; bv_omega
  have hk : s.sp.toNat - 1 < 256 := by omega
  obtain ⟨u, hpop, hreg, hkept, hu⟩ := exec_popRd_of_cell (k := ⟨s.sp.toNat - 1, hk⟩) htsp.symm j
  have htreg (k : RegIx) : t.reg k = s.reg k := by rw [ht]; rfl
  have hucell (k : Fin 256) : u.cell k = t.cell k := by rw [hu]; rfl
  refine ⟨t, u, hpush, hpop, ?copied, fun k hne => (hkept k hne).trans (htreg k), ?cells, pushThenPop_frame ht hu⟩
  case copied => rw [hreg, hcell, if_pos (Nat.sub_add_cancel hpos)]
  case cells =>
    intro k hne
    rw [hucell, hcell, if_neg hne]

end Sys2Proof.Machine

/-! SUPPORT. The decimal text of a word, and what each input or output instruction does once its operand is popped
(44_io.md R172 to R178). -/

namespace Sys2Proof.Machine

/-! ### The decimal numeral (44_io.md R172) -/

section
variable {fuel n : Nat}

theorem toNat_asciiDigit (h : n < 10) : (asciiDigit n).toNat = 0x30 + n := by
  rw [asciiDigit, BitVec.toNat_ofNat]; omega

theorem decDigits_of_lt (h : n < 10) : decDigits (fuel + 1) n = [asciiDigit n] := by rw [decDigits, if_pos h]

theorem decDigits_of_ge (h : 10 ≤ n) :
    decDigits (fuel + 1) n = decDigits fuel (n / 10) ++ [asciiDigit (n % 10)] := by
  rw [decDigits, if_neg (by omega)]

/-- With enough fuel, the numeral read in base 10 is the number. -/
theorem decDigits_value (h : n < 10 ^ fuel) :
    (decDigits fuel n).foldl (fun m b => 10 * m + (b.toNat - 0x30)) 0 = n := by
  induction fuel generalizing n with
  | zero => exact (Nat.lt_one_iff.mp h).symm
  | succ fuel ih =>
    by_cases hn : n < 10
    · rw [decDigits_of_lt hn, List.foldl_cons, List.foldl_nil, toNat_asciiDigit hn]; omega
    · have hquot : n / 10 < 10 ^ fuel := by rw [Nat.pow_succ] at h; omega
      rw [decDigits_of_ge (by omega), List.foldl_append, ih hquot, List.foldl_cons, List.foldl_nil,
        toNat_asciiDigit (Nat.mod_lt _ (by decide))]
      omega

theorem decDigits_ascii {b : Byte} (hb : b ∈ decDigits fuel n) : 0x30 ≤ b.toNat ∧ b.toNat ≤ 0x39 := by
  have digit {d : Nat} (hd : d < 10) (h : b ∈ [asciiDigit d]) : 0x30 ≤ b.toNat ∧ b.toNat ≤ 0x39 := by
    rw [List.mem_singleton.mp h, toNat_asciiDigit hd]; omega
  induction fuel generalizing n with
  | zero => cases hb
  | succ fuel ih =>
    by_cases hn : n < 10
    · exact digit hn (decDigits_of_lt hn ▸ hb)
    · rw [decDigits_of_ge (by omega), List.mem_append] at hb
      exact hb.elim ih (digit (Nat.mod_lt _ (by decide)))

theorem length_decDigits_le : (decDigits fuel n).length ≤ fuel := by
  induction fuel generalizing n with
  | zero => exact Nat.le_refl 0
  | succ fuel ih =>
    by_cases hn : n < 10
    · rw [decDigits_of_lt hn]; exact Nat.succ_le_succ (Nat.zero_le fuel)
    · rw [decDigits_of_ge (by omega), List.length_append]; exact Nat.succ_le_succ ih

/-- With enough fuel, the numeral of a number above 0 begins with a digit above 0. -/
theorem decDigits_eq_cons (hpos : 0 < n) (h : n < 10 ^ fuel) :
    ∃ d bs, decDigits fuel n = asciiDigit d :: bs ∧ 0 < d ∧ d < 10 := by
  induction fuel generalizing n with
  | zero => exact absurd (Nat.lt_one_iff.mp h) (Nat.ne_of_gt hpos)
  | succ fuel ih =>
    by_cases hn : n < 10
    · exact ⟨n, [], decDigits_of_lt hn, hpos, hn⟩
    · have hquot : n / 10 < 10 ^ fuel := by rw [Nat.pow_succ] at h; omega
      obtain ⟨d, bs, e, hd⟩ := ih (by omega) hquot
      exact ⟨d, bs ++ [asciiDigit (n % 10)], by rw [decDigits_of_ge (by omega), e, List.cons_append], hd⟩

end

/-- The text of a word is the one digit 0 or begins with a digit above 0. -/
theorem decStr_cases (v : Word) :
    decStr v = [0x30#8] ∨ ∃ d bs, decStr v = asciiDigit d :: bs ∧ 0 < d ∧ d < 10 := by
  rcases Nat.eq_zero_or_pos v.toNat with hv | hv
  · exact .inl (by rw [decStr, hv]; rfl)
  · exact .inr (decDigits_eq_cons hv (by omega))

/-! ### The bytes of a string in `data` (44_io.md R173, R174) -/

/-- The bytes from `a` on are the reads at the addresses from `a` on. -/
theorem Memory.bytes_eq_map_range' (m : Memory) (a n : Nat) : m.bytes a n = (List.range' a n).map m.read := by
  rw [Memory.bytes_eq_map, List.range'_eq_map_range, List.map_map]; rfl

/-- A line and its zero byte, written where they fit to a canonical memory, read back. -/
theorem Memory.wf_writeBytes_line {m : Memory} (hm : m.wf) {a : Nat} (ln : List Byte) (h : a + ln.length ≤ 4095) :
    (m.writeBytes a (ln ++ [0#8])).wf ∧ (m.writeBytes a (ln ++ [0#8])).read (a + ln.length) = 0#8 ∧
      ∀ (n : Nat) (hn : n < ln.length), (m.writeBytes a (ln ++ [0#8])).read (a + n) = ln[n] := by
  have hlen : (ln ++ [0#8]).length = ln.length + 1 := List.length_append
  have hread := Memory.read_writeBytes_inside hm (a := a) (ln ++ [0#8]) (by omega)
  refine ⟨Memory.wf_writeBytes hm _ (by omega), ?_, fun n hn => ?_⟩
  · rw [hread _ (by omega), List.getElem_concat_length rfl]
  · rw [hread n (by omega), List.getElem_append_left hn]

section
variable {i : Instr} {s t : State} {k : Fin 256}

/-! ### The pop of the operand (20_memory.md R51) -/

theorem orRaise_top_of_empty (h : s.sp.toNat = 256) (f : Word → StepResult) :
    orRaise s.top s f = .next (s.withFault .stackUnderflow) := by
  rw [top_of_empty h, orRaise_raised, State.withFault]

theorem orRaise_top_of_cell (hk : k.val = s.sp.toNat) (f : Word → StepResult) :
    orRaise s.top s f = f (s.cell k) := by
  rw [top_eq_cell hk, orRaise_ok]

/-! ### PRINT_STR with its operand popped (44_io.md R176) -/

theorem exec_printStr_of_badAddress (hk : k.val = s.sp.toNat) (ha : 4095 < (s.cell k).toNat) :
    exec .printStr s = .next { s with sp := s.sp + 1#16, status := .faulted .outOfBoundsAddress } := by
  rw [exec, execPrintStr, orRaise_top_of_cell hk, if_pos ha, raise, State.popped]

theorem exec_printStr_of_unterminated (hk : k.val = s.sp.toNat) (ha : (s.cell k).toNat ≤ 4095)
    (hz : s.data.terminator (s.cell k).toNat = none) : exec .printStr s =
      raise .unterminatedOrOversizedIO (s.popped.emitFaultOutput (s.cell k).toNat) := by
  rw [exec, execPrintStr, orRaise_top_of_cell hk, if_neg (by omega), hz]

theorem exec_printStr_of_terminated {e : Nat} (hk : k.val = s.sp.toNat) (ha : (s.cell k).toNat ≤ 4095)
    (hz : s.data.terminator (s.cell k).toNat = some e) : exec .printStr s =
      complete 1 (s.popped.emit (s.data.bytes (s.cell k).toNat (e - (s.cell k).toNat))) := by
  rw [exec, execPrintStr, orRaise_top_of_cell hk, if_neg (by omega), hz]

/-! ### SCAN_STR with its operand popped (44_io.md R177) -/

theorem exec_scanStr_of_badAddress (hk : k.val = s.sp.toNat) (ha : 4095 < (s.cell k).toNat) :
    exec .scanStr s = .next { s with sp := s.sp + 1#16, status := .faulted .outOfBoundsAddress } := by
  rw [exec, execScanStr, orRaise_top_of_cell hk, if_pos ha, raise, State.popped]

theorem exec_scanStr_of_fits {ln rest : List Byte} (hk : k.val = s.sp.toNat)
    (hline : nextLine s.input = some (ln, rest)) (hfit : (s.cell k).toNat + ln.length ≤ 4095) :
    exec .scanStr s = complete 1 { s.popped with
      input := rest, data := s.data.writeBytes (s.cell k).toNat (ln ++ [0#8]) } := by
  rw [exec, execScanStr, orRaise_top_of_cell hk, if_neg (by omega), hline]
  exact if_neg (by omega)

theorem exec_scanStr_of_oversized {ln rest : List Byte} (hk : k.val = s.sp.toNat) (ha : (s.cell k).toNat ≤ 4095)
    (hline : nextLine s.input = some (ln, rest)) (hbig : 4095 < (s.cell k).toNat + ln.length) :
    exec .scanStr s =
      raise .unterminatedOrOversizedIO ({ s.popped with input := rest }.scrambleFrom (s.cell k).toNat) := by
  rw [exec, execScanStr, orRaise_top_of_cell hk, if_neg (by omega), hline]
  exact if_pos (by omega)

/-! ### The output of one instruction (44_io.md R170, R178) -/

/-- An effect adds bytes to the output or leaves it, and only PRINT_INT and PRINT_STR add any. -/
theorem Effect.output_append (h : Effect i s t) :
    ∃ bs, t.output = s.output ++ bs ∧ (bs ≠ [] → i.opcode ∈ [0xC0#8, 0xC2#8]) := by
  cases h with
  | printed bs hi => exact ⟨bs, rfl, fun _ => by rcases hi with rfl | rfl <;> exact mem_opcodes rfl⟩
  | unterminated n hi => exact ⟨_, rfl, fun _ => hi ▸ mem_opcodes rfl⟩
  | _ => exact ⟨[], (List.append_nil _).symm, absurd rfl⟩

end

/-- Settles O49. -/
theorem printIntEmitsDecimal : Obligations.PrintIntEmitsDecimal := by
  refine ⟨rfl, fun s => ⟨fun hempty => orRaise_top_of_empty hempty _, fun k hk => ?_⟩⟩
  rw [exec, execPrintInt, orRaise_top_of_cell hk, List.append_assoc]
  rfl

/-- Settles O50: five digits are enough for every word, and a leading zero stands only in the text of 0. -/
theorem decStrIsTheNumeral : Obligations.DecStrIsTheNumeral := by
  intro v
  refine ⟨decDigits_value (by omega), fun b => decDigits_ascii, ?nonempty, length_decDigits_le, fun hzero => ?leading⟩
  case nonempty =>
    rcases decStr_cases v with e | ⟨d, bs, e, -⟩ <;> simp [e]
  case leading =>
    rcases decStr_cases v with e | ⟨d, bs, e, hpos, hd⟩
    · exact e
    · rw [e, List.head?_cons] at hzero
      have hdigit := toNat_asciiDigit hd
      rw [Option.some.inj hzero, BitVec.toNat_ofNat] at hdigit
      omega

/-- Settles O51: the first zero byte from the address on is the terminator. -/
theorem printStrEmitsString : Obligations.PrintStrEmitsString := by
  intro s k e hk ha he hzero hbefore
  have hterm : s.data.terminator (s.cell k).toNat = some e :=
    Memory.terminator_eq_some.mpr ⟨hzero, ha, Nat.lt_succ_of_le he, hbefore⟩
  rw [exec_printStr_of_terminated hk (ha.trans he) hterm, Memory.bytes_eq_map_range']
  rfl

/-- Settles O52: with no zero byte there is no terminator, and how many of the bytes are emitted is a free value. -/
theorem printStrFaults : Obligations.PrintStrFaults := by
  intro s
  refine ⟨fun hempty => orRaise_top_of_empty hempty _, fun k hk => ⟨exec_printStr_of_badAddress hk, fun ha hnone => ?_⟩⟩
  have hterm : s.data.terminator (s.cell k).toNat = none :=
    Memory.terminator_eq_none.mpr fun b hlo hhi => hnone b hlo (Nat.le_of_lt_succ hhi)
  obtain ⟨n, hout⟩ := emitFaultOutput_spec s.popped (s.cell k).toNat
  rw [exec_printStr_of_unterminated hk ha hterm, hout, Memory.bytes_eq_map_range']
  exact ⟨_, n, rfl, rfl⟩

/-- Settles O53: a line that fits is written with its zero byte, and nothing outside them. -/
theorem scanStrStoresLine : Obligations.ScanStrStoresLine := by
  intro s k ln rest hk hin hln hfit
  rw [exec_scanStr_of_fits hk (nextLine_eq_some.mpr ⟨hin, hln⟩) hfit]
  refine ⟨_, rfl, fun hwf => Memory.wf_writeBytes_line hwf ln hfit, fun b hb => ?_, rfl⟩
  refine Memory.read_writeBytes_of_outside _ _ (hb.imp_right fun hpast => ?_)
  rw [List.length_append]
  exact hpast

/-- Settles O54: the free bytes of a line that does not fit lie at the address and above it. -/
theorem scanStrFaults : Obligations.ScanStrFaults := by
  intro s
  refine ⟨fun hempty => orRaise_top_of_empty hempty _, fun k hk => ⟨exec_scanStr_of_badAddress hk, ?_⟩⟩
  intro ln rest hin hln ha hbig
  obtain ⟨m, hdata, hbelow, -⟩ := scrambleFrom_spec { s.popped with input := rest } ha
  rw [exec_scanStr_of_oversized hk ha (nextLine_eq_some.mpr ⟨hin, hln⟩) hbig, hdata]
  exact ⟨_, rfl, hbelow, rfl⟩

/-- Settles O56: a fetch fault emits nothing, and the byte at `ip` is the opcode of the instruction that ran. -/
theorem outputOnlyGrows : Obligations.OutputOnlyGrows := by
  intro s t hstep
  obtain ⟨-, ⟨e, -, rfl⟩ | ⟨i, rest, hdec, hexec⟩⟩ := step_next hstep
  · exact ⟨[], (List.append_nil _).symm, absurd rfl⟩
  · exact read_ip_of_decode hdec ▸ (exec_effect hexec).output_append

end Sys2Proof.Machine

/-! OBLIGATIONS. The normal end of a run (45_halt.md R190). -/

namespace Sys2Proof.Machine

/-- Settles O13: HALT is the model's rule `haltAt`, which raises nothing and reads nothing but `ip`. -/
theorem haltEndsTheRun : Obligations.HaltEndsTheRun := by
  refine ⟨rfl, fun s => ?_⟩
  rw [exec, execHalt, haltAt_next]

end Sys2Proof.Machine

/-! SUPPORT. When a running core has a step: every instruction but a waiting SCAN_STR answers a next state, and a line
from the host ends the wait (60_exceptions.md R200, R219, R220). -/

namespace Sys2Proof.Machine

section
variable {i : Instr} {s : State} {k : Fin 256} {rest : List Byte}

/-! ### A step by the status (60_exceptions.md R200, R201) -/

theorem step_of_halted (h : s.status = .halted) : step s = .fault .runHalted := by rw [step, h]

theorem step_of_faulted {r : FaultReason} (h : s.status = .faulted r) : step s = .fault (.runFaulted r) := by
  rw [step, h]

/-- A running core has a step if the instruction it fetches has one: a refusal of the decoder is a fault. -/
theorem step_total (hrun : s.status = .running)
    (h : ∀ i rest, decode s.fetchBytes = .ok (i, rest) → ∃ t, exec i s = .next t) : ∃ t, step s = .next t := by
  cases hdec : decode s.fetchBytes with
  | error e => exact ⟨_, step_error hrun hdec⟩
  | ok p =>
    obtain ⟨i, rest⟩ := p
    rw [step_ok hrun hdec]
    exact h i rest hdec

/-- Nothing is decoded from outside `data`. -/
theorem ip_le_of_decode (h : decode s.fetchBytes = .ok (i, rest)) : s.ip.toNat ≤ 4095 := by
  by_contra hpast
  rw [fetchBytes_eq_nil (by omega)] at h
  cases h

/-- A running core with the byte 0x89 at `ip` runs SCAN_STR. -/
theorem step_of_scanStr_byte (hrun : s.status = .running) (hip : s.ip.toNat ≤ 4095)
    (hbyte : s.data.read s.ip.toNat = 0x89#8) : step s = exec .scanStr s := by
  obtain ⟨rest, hfetch⟩ := fetchBytes_eq_cons hip
  exact step_ok (rest := rest) hrun (by rw [hfetch, hbyte]; rfl)

/-! ### SCAN_STR and its line (44_io.md R171, R177) -/

theorem exec_scanStr_of_noLine (hk : k.val = s.sp.toNat) (ha : (s.cell k).toNat ≤ 4095) (h : newline ∉ s.input) :
    exec .scanStr s = .fault .awaitingLine := by
  rw [exec, execScanStr, orRaise_top_of_cell hk, if_neg (by omega), nextLine_eq_none.mpr h]
  rfl

/-- With its line there, SCAN_STR completes or faults: only a popped address in `data` asks for the line. -/
theorem exec_scanStr_total (hsp : s.sp.toNat ≤ 256)
    (hline : ∀ k : Fin 256, k.val = s.sp.toNat → (s.cell k).toNat ≤ 4095 → newline ∈ s.input) :
    ∃ t, exec .scanStr s = .next t := by
  rcases Nat.lt_or_eq_of_le hsp with hlt | hempty
  · obtain ⟨k, hk⟩ : ∃ k : Fin 256, k.val = s.sp.toNat := ⟨⟨_, hlt⟩, rfl⟩
    by_cases ha : (s.cell k).toNat ≤ 4095
    · cases hnext : nextLine s.input with
      | none => exact absurd (hline k hk ha) (nextLine_eq_none.mp hnext)
      | some p =>
        obtain ⟨ln, rest⟩ := p
        by_cases hfit : (s.cell k).toNat + ln.length ≤ 4095
        · exact ⟨_, exec_scanStr_of_fits hk hnext hfit⟩
        · exact ⟨_, exec_scanStr_of_oversized hk ha hnext (Nat.lt_of_not_le hfit)⟩
    · exact ⟨_, exec_scanStr_of_badAddress hk (Nat.lt_of_not_le ha)⟩
  · exact ⟨_, orRaise_top_of_empty hempty _⟩

/-! ### The other instructions -/

theorem exec_alu_total (hi : i.opcode ∈ aluOpcodes) (s : State) : ∃ t, exec i s = .next t :=
  have ⟨t, hnext, _⟩ := exec_alu_aluEnd hi s
  ⟨t, hnext⟩

theorem exec_printStr_total (hsp : s.sp.toNat ≤ 256) : ∃ t, exec .printStr s = .next t := by
  refine orRaise_total (top_ne_stuck hsp) fun a => ?_
  by_cases ha : a.toNat > 4095
  · exact ⟨_, if_pos ha⟩
  · rw [if_neg ha]
    cases s.data.terminator a.toNat with
    | none => exact ⟨_, rfl⟩
    | some e => exact ⟨_, rfl⟩

/-- With a legal `sp`, SCAN_STR alone can be without a step. -/
theorem exec_total_of_ne_scanStr (hsp : s.sp.toNat ≤ 256) (hi : i ≠ .scanStr) : ∃ t, exec i s = .next t := by
  cases i with
  | nop | movRdRs | movxRdByteAddr | movRdWordAddr | movxRdImm8 | movRdImm16 | movByteAddrRs | movWordAddrRs
  | movByteRdRs | movxRdByteRs => exact exec_dataMovement_total (mem_opcodes rfl) s
  | addRdImm16 | addRdRs | addlRdRs | addlRdImm8 | subRdImm16 | subRdRs | sublRdRs | sublRdImm8 | xorRdRs | xorlRdRs
  | cmpRdRs | cmplRdRs => exact exec_alu_total (mem_opcodes rfl) s
  | jmp | jz | jnz | jae | jbe | jb | ja => exact jump_total _ _ s
  | pushRs =>
    exact orRaise_total (selOne_ne_stuck _) fun _ => orRaise_total (push_ne_stuck hsp _) fun _ => ⟨_, rfl⟩
  | popRd => exact orRaise_total (selOne_ne_stuck _) fun _ => orRaise_total (top_ne_stuck hsp) fun _ => ⟨_, rfl⟩
  | printInt => exact orRaise_total (top_ne_stuck hsp) fun _ => ⟨_, rfl⟩
  | printStr => exact exec_printStr_total hsp
  | scanStr => exact absurd rfl hi
  | halt => exact ⟨_, rfl⟩

end

/-- Settles O9. -/
theorem terminalHasNoStep : Obligations.TerminalHasNoStep := fun _ => ⟨step_of_halted, fun _ => step_of_faulted⟩

/-- Settles O55: the line that ends the wait is stored as any other, after the bytes that had arrived before it. -/
theorem scanStrWaits : Obligations.ScanStrWaits := by
  refine fun s k hk ha hnone => ⟨exec_scanStr_of_noLine hk ha hnone, fun ln hln hfit => ?_⟩
  have hline : 0x0A#8 ∉ s.input ++ ln := fun h => (List.mem_append.mp h).elim hnone hln
  exact scanStrStoresLine (s.supplyLine ln) k (s.input ++ ln) [] hk rfl hline hfit

/-- Settles O10: a SCAN_STR that is fetched and not blocked has its line or needs none, and a blocked one has it once the
host has answered. -/
theorem runningStepsUnlessBlocked : Obligations.RunningStepsUnlessBlocked := by
  refine fun s hsp hrun => ⟨fun hfree => step_total hrun fun i rest hdec => ?_, ?_⟩
  · by_cases hi : i = .scanStr
    · subst hi
      refine exec_scanStr_total hsp fun k hk ha => by_contra fun hnone => hfree ?_
      exact ⟨hrun, ip_le_of_decode hdec, read_ip_of_decode hdec, ⟨k, hk, ha⟩, hnone⟩
    · exact exec_total_of_ne_scanStr hsp hi
  · rintro ⟨-, hip, hbyte, ⟨k, hk, ha⟩, hnone⟩
    refine ⟨(step_of_scanStr_byte hrun hip hbyte).trans (exec_scanStr_of_noLine hk ha hnone), fun line => ?_⟩
    rw [step_of_scanStr_byte (s := s.supplyLine line) hrun hip hbyte]
    exact exec_scanStr_total hsp fun _ _ _ => List.mem_append_right _ (List.mem_singleton_self _)

/-- Settles O11: a fault of the fetch changes `status` alone, and the four faulting effects are the four shapes. -/
theorem faultsArePrecise : Obligations.FaultsArePrecise := by
  intro s t r hstep ht
  obtain ⟨hrun, ⟨e, -, rfl⟩ | ⟨i, rest, hdec, hexec⟩⟩ := step_next hstep
  · cases ht; exact .inl rfl
  · rw [read_ip_of_decode hdec]
    cases exec_effect hexec with
    | fault => cases ht; exact .inl rfl
    | badAddress hi =>
      cases ht
      exact .inr (.inl ⟨by rcases hi with rfl | rfl <;> exact mem_opcodes rfl, rfl, rfl⟩)
    | unterminated n hi hsp =>
      cases ht
      rw [Memory.bytes_eq_map_range']
      exact .inr (.inr (.inl ⟨hi ▸ rfl, rfl, rfl, ⟨s.sp.toNat, hsp⟩, n, rfl, rfl⟩))
    | oversized m ln rest hi hsp hin hln _ hbelow =>
      cases ht
      exact .inr (.inr (.inr ⟨hi ▸ rfl, rfl, rfl, ⟨ln, hin, hln⟩, ⟨s.sp.toNat, hsp⟩, rfl, hbelow⟩))
    | halts => cases ht
    | _ => cases hrun.symm.trans ht

end Sys2Proof.Machine

/-! SUPPORT. Two states that differ only in stack cells below `sp`, run side by side: every shared operation gives them
the same answer and keeps the difference below `sp` (70_reset_and_hazards.md R243). -/

namespace Sys2Proof.Machine

/-- Two outcomes that cannot be told apart without reading below `sp`: next states that agree, or the same stop. -/
inductive AgreeOnLive : StepResult → StepResult → Prop
  | next {s t : State} (h : s.agreeOnLive t) : AgreeOnLive (.next s) (.next t)
  | fault (f : Fault) : AgreeOnLive (.fault f) (.fault f)

/-- Two answers of a checked write: states that agree, or the same refusal of the write. -/
inductive Checked.AgreeOnLive : Checked State → Checked State → Prop
  | ok {s t : State} (h : s.agreeOnLive t) : AgreeOnLive (.ok s) (.ok t)
  | raised (r : FaultReason) : AgreeOnLive (.raised r) (.raised r)
  | stuck (f : Fault) : AgreeOnLive (.stuck f) (.stuck f)

theorem AgreeOnLive.exists_next {o p : StepResult} {s : State} (h : AgreeOnLive o p) (ho : o = .next s) :
    ∃ t, p = .next t ∧ s.agreeOnLive t := by
  subst ho
  cases h with
  | next hst => exact ⟨_, rfl, hst⟩

theorem AgreeOnLive.fault_eq {o p : StepResult} {f : Fault} (h : AgreeOnLive o p) (ho : o = .fault f) :
    p = .fault f := by
  subst ho
  cases h with
  | fault => rfl

section
variable {s u : State} {st : Vector Word 256}

theorem State.agreeOnLive.exists_stack {t : State} (h : s.agreeOnLive t) : ∃ st, t = { s with stack := st } :=
  ⟨t.stack, h.1⟩

/-! ### Updates of a state -/

/-- The one reason an update keeps the agreement: it writes no stack cell and makes no dead one live. -/
theorem State.agreeOnLive.update (h : s.agreeOnLive { s with stack := st }) (hstack : u.stack = s.stack)
    (hsp : s.sp.toNat ≤ u.sp.toNat) : u.agreeOnLive { u with stack := st } := by
  obtain ⟨-, hlive⟩ := h
  refine ⟨rfl, fun k hk => ?_⟩
  calc st[k] = s.cell k := hlive k (Nat.le_trans hsp hk)
    _ = u.cell k := by rw [State.cell, State.cell, hstack]

/-- A pop that does not underflow raises `sp`. -/
theorem State.agreeOnLive.popped (h : s.agreeOnLive { s with stack := st }) (hlt : s.sp.toNat < 256) :
    s.popped.agreeOnLive { s.popped with stack := st } :=
  h.update rfl (by rw [popped_sp]; bv_omega)

/-- A pop reads a live cell. -/
theorem State.agreeOnLive.top_eq (h : s.agreeOnLive { s with stack := st }) :
    { s with stack := st }.top = s.top := by
  obtain ⟨-, hlive⟩ := h
  unfold State.top
  dsimp only
  split_ifs with hempty hlt
  · rfl
  · exact congrArg Checked.ok (hlive ⟨s.sp.toNat, hlt⟩ (Nat.le_refl _))
  · rfl

/-- A push makes one cell live, the one it has written. -/
theorem State.agreeOnLive.push (h : s.agreeOnLive { s with stack := st }) (v : Word) :
    (s.push v).AgreeOnLive ({ s with stack := st }.push v) := by
  obtain ⟨-, hlive⟩ := h
  unfold State.push
  dsimp only
  split_ifs with hfull hlt
  · exact .raised _
  · refine .ok ⟨rfl, fun k hk => ?_⟩
    have hsp : (s.sp - 1#16).toNat = s.sp.toNat - 1 := by bv_omega
    replace hk : (s.sp - 1#16).toNat ≤ k.val := hk
    rw [State.cell, State.cell, cell_set_stack (s := { s with stack := st }), cell_set_stack]
    split_ifs with hnew
    · rfl
    · exact hlive k (by omega)
  · exact .stuck _

theorem State.agreeOnLive.memWrite1 (h : s.agreeOnLive { s with stack := st }) (ea : Word) (v : Byte) :
    (s.memWrite1 ea v).AgreeOnLive ({ s with stack := st }.memWrite1 ea v) := by
  rcases Nat.lt_or_ge 4095 ea.toNat with hout | hin
  · rw [memWrite1_outOfRange hout, memWrite1_outOfRange hout]
    exact .raised _
  · rw [memWrite1_inRange hin, memWrite1_inRange hin]
    exact .ok (h.update rfl (Nat.le_refl _))

theorem State.agreeOnLive.memWrite2 (h : s.agreeOnLive { s with stack := st }) (ea v : Word) :
    (s.memWrite2 ea v).AgreeOnLive ({ s with stack := st }.memWrite2 ea v) := by
  rcases Nat.lt_or_ge 4094 ea.toNat with hout | hin
  · rw [memWrite2_outOfRange hout, memWrite2_outOfRange hout]
    exact .raised _
  · rw [memWrite2_inRange hin, memWrite2_inRange hin]
    exact .ok (h.update rfl (Nat.le_refl _))

/-! ### The ends of a step -/

theorem agree_raise (h : s.agreeOnLive { s with stack := st }) (r : FaultReason) :
    AgreeOnLive (raise r s) (raise r { s with stack := st }) :=
  .next (h.update rfl (Nat.le_refl _))

theorem agree_complete (h : s.agreeOnLive { s with stack := st }) (len : Nat) :
    AgreeOnLive (complete len s) (complete len { s with stack := st }) :=
  .next (h.update rfl (Nat.le_refl _))

/-- Completing after an update of anything but the stack and `sp`. -/
theorem agree_complete_update (h : s.agreeOnLive { s with stack := st }) (len : Nat) (hstack : u.stack = s.stack)
    (hsp : u.sp = s.sp) : AgreeOnLive (complete len u) (complete len { u with stack := st }) :=
  agree_complete (h.update hstack (by rw [hsp])) len

theorem agree_jump (h : s.agreeOnLive { s with stack := st }) (target : Word) (c : Bool) :
    AgreeOnLive (jump target c s) (jump target c { s with stack := st }) := by
  rcases Nat.lt_or_ge 4095 target.toNat with hout | hin
  · rw [jump_outOfRange hout, jump_outOfRange hout]
    exact .next (h.update rfl (Nat.le_refl _))
  · rw [jump_inRange hin, jump_inRange hin]
    exact .next (h.update rfl (Nat.le_refl _))

/-! ### A check and what follows it -/

/-- A check that does not look at the stack. -/
theorem agree_orRaise {α : Type} (h : s.agreeOnLive { s with stack := st }) {c : Checked α} {k k' : α → StepResult}
    (hk : ∀ a, AgreeOnLive (k a) (k' a)) : AgreeOnLive (orRaise c s k) (orRaise c { s with stack := st } k') := by
  cases c with
  | ok a => exact hk a
  | raised r => exact agree_raise h r
  | stuck f => exact .fault f

/-- A checked write, then completing. -/
theorem agree_orRaise_complete (h : s.agreeOnLive { s with stack := st }) {c c' : Checked State}
    (hc : c.AgreeOnLive c') (len : Nat) :
    AgreeOnLive (orRaise c s fun t => complete len t) (orRaise c' { s with stack := st } fun t => complete len t) := by
  cases hc with
  | ok hst =>
    obtain ⟨st', rfl⟩ := hst.exists_stack
    exact agree_complete hst len
  | raised r => exact agree_raise h r
  | stuck f => exact .fault f

/-- A pop and what follows it: the same value is popped, and the popped states agree. -/
theorem agree_orRaise_top (h : s.agreeOnLive { s with stack := st }) {k k' : Word → StepResult}
    (hk : s.popped.agreeOnLive { s.popped with stack := st } → ∀ v, AgreeOnLive (k v) (k' v)) :
    AgreeOnLive (orRaise s.top s k) (orRaise { s with stack := st }.top { s with stack := st } k') := by
  rw [h.top_eq]
  rcases top_cases s with ⟨-, e⟩ | ⟨hlt, e⟩ | ⟨-, e⟩ <;> rw [e]
  · exact agree_raise h _
  · exact hk (h.popped hlt) _
  · exact .fault _

/-! ### The instructions -/

theorem agree_printStr (h : s.agreeOnLive { s with stack := st }) :
    AgreeOnLive (exec .printStr s) (exec .printStr { s with stack := st }) := by
  refine agree_orRaise_top h fun hp a => ?_
  by_cases ha : a.toNat > 4095
  · rw [if_pos ha, if_pos ha]
    exact agree_raise hp _
  · rw [if_neg ha, if_neg ha]
    dsimp only
    cases s.data.terminator a.toNat with
    | none => exact .next (hp.update rfl (Nat.le_refl _))
    | some e => exact agree_complete_update hp 1 rfl rfl

theorem agree_scanStr (h : s.agreeOnLive { s with stack := st }) :
    AgreeOnLive (exec .scanStr s) (exec .scanStr { s with stack := st }) := by
  refine agree_orRaise_top h fun hp a => ?_
  by_cases ha : a.toNat > 4095
  · rw [if_pos ha, if_pos ha]
    exact agree_raise hp _
  · rw [if_neg ha, if_neg ha]
    dsimp only
    cases nextLine s.input with
    | none => exact .fault _
    | some p =>
      obtain ⟨line, rest⟩ := p
      by_cases hbig : line.length > 4095 - a.toNat
      · simp only [if_pos hbig]
        exact .next (hp.update rfl (Nat.le_refl _))
      · simp only [if_neg hbig]
        exact agree_complete_update hp 1 rfl rfl

/-- Only PUSH, POP and the three I/O instructions look at the stack at all. -/
theorem agree_exec (h : s.agreeOnLive { s with stack := st }) (i : Instr) :
    AgreeOnLive (exec i s) (exec i { s with stack := st }) := by
  cases i with
  | nop => exact agree_complete h 1
  | movRdRs | movxRdImm8 | movRdImm16 | addRdImm16 | addRdRs | addlRdRs | addlRdImm8 | subRdImm16 | subRdRs | sublRdRs
  | sublRdImm8 | xorRdRs | xorlRdRs | cmpRdRs | cmplRdRs =>
    exact agree_orRaise h fun _ => agree_complete_update h _ rfl rfl
  | movxRdByteAddr | movRdWordAddr | movxRdByteRs =>
    exact agree_orRaise h fun _ => agree_orRaise h fun _ => agree_complete_update h _ rfl rfl
  | movByteAddrRs | movByteRdRs => exact agree_orRaise h fun _ => agree_orRaise_complete h (h.memWrite1 _ _) _
  | movWordAddrRs => exact agree_orRaise h fun _ => agree_orRaise_complete h (h.memWrite2 _ _) _
  | jmp | jz | jnz | jae | jbe | jb | ja => exact agree_jump h _ _
  | pushRs => exact agree_orRaise h fun _ => agree_orRaise_complete h (h.push _) _
  | popRd => exact agree_orRaise h fun _ => agree_orRaise_top h fun hp _ => agree_complete_update hp _ rfl rfl
  | printInt => exact agree_orRaise_top h fun hp _ => agree_complete_update hp _ rfl rfl
  | printStr => exact agree_printStr h
  | scanStr => exact agree_scanStr h
  | halt => exact .next (h.update rfl (Nat.le_refl _))

/-- The fetch and the status do not look at the stack. -/
theorem agree_step {t : State} (h : s.agreeOnLive t) : AgreeOnLive (step s) (step t) := by
  obtain ⟨st, ht⟩ := h.exists_stack
  have hstatus : t.status = s.status := by rw [ht]
  have hfetch : t.fetchBytes = s.fetchBytes := by rw [ht]; rfl
  cases hs : s.status with
  | halted =>
    rw [step_of_halted hs, step_of_halted (hstatus.trans hs)]
    exact .fault _
  | faulted r =>
    rw [step_of_faulted hs, step_of_faulted (hstatus.trans hs)]
    exact .fault _
  | running =>
    cases hdec : decode s.fetchBytes with
    | error e =>
      rw [step_error hs hdec, step_error (hstatus.trans hs) (hfetch ▸ hdec)]
      subst ht
      exact agree_raise h _
    | ok p =>
      obtain ⟨i, rest⟩ := p
      rw [step_ok hs hdec, step_ok (hstatus.trans hs) (hfetch ▸ hdec)]
      subst ht
      exact agree_exec h i

end

/-- Settles O59: the two steps agree, whatever the outcome of the first. -/
theorem deadStackCellsUnobservable : Obligations.DeadStackCellsUnobservable :=
  fun _ _ h => ⟨fun _ => (agree_step h).exists_next, fun _ => (agree_step h).fault_eq⟩

end Sys2Proof.Machine
